-- ==== Sys2Proof/Word.lean ====
section
/-! DEFINITION. The machine word of the NTT core (00_scope.md R7). -/

namespace Sys2Proof

/-- `Word16` (00_scope.md R7): every register, memory word and instruction word has 16 bits, bit 15 the most
significant (R6). `+` and `-` are modulo 2^16, `~~~` is the complement within 16 bits. -/
abbrev Word := BitVec 16

end Sys2Proof
end

