-- ==== Sys2Proof/Syntax.lean ====
section
/-! DEFINITION. The instructions: one constructor per row of spec/opcode_table.json. -/

namespace Sys2Proof

/-- The operand select of 42_command.md R161: what feeds the ALU's y input. -/
inductive YSource where
  /-- a-bit 0: register A. -/
  | regA
  /-- a-bit 1: the data-memory word at address A (the operand M). -/
  | mem
  deriving DecidableEq, Repr

/-- The six ALU control bits of 41_alu.md R110 (instruction bits 11..6, 30_encoding.md R65). -/
structure AluControl where
  zx : Bool
  nx : Bool
  zy : Bool
  ny : Bool
  f  : Bool
  no : Bool
  deriving DecidableEq, Repr

/-- The destination bits of 30_encoding.md R66: each selects one receiver of the result. -/
structure Dest where
  dA : Bool
  dD : Bool
  dM : Bool
  deriving DecidableEq, Repr

/-- The jump bits of 30_encoding.md R67. -/
structure Jump where
  jLT : Bool
  jEQ : Bool
  jGT : Bool
  deriving DecidableEq, Repr

/-- An instruction of the NTT core, one constructor per row of spec/opcode_table.json. Bits 14:13 of a command word
are no field: the core never reads them (30_encoding.md R68; log entry 7). -/
inductive Instr where
  /-- `@value` (40_address_instruction.md R100). -/
  | atValue (v : BitVec 15)
  /-- `[dest=]0[;jump]` (41_alu.md R120). -/
  | zero (dest : Dest) (jump : Jump)
  /-- `[dest=]1[;jump]` (R121). -/
  | one (dest : Dest) (jump : Jump)
  /-- `[dest=]-1[;jump]` (R122). -/
  | minusOne (dest : Dest) (jump : Jump)
  /-- `[dest=]D[;jump]` (R123). -/
  | passD (dest : Dest) (jump : Jump)
  /-- `[dest=]A[;jump]` (R124). -/
  | passA (dest : Dest) (jump : Jump)
  /-- `[dest=]!D[;jump]` (R125). -/
  | notD (dest : Dest) (jump : Jump)
  /-- `[dest=]!A[;jump]` (R126). -/
  | notA (dest : Dest) (jump : Jump)
  /-- `[dest=]-D[;jump]` (R127). -/
  | negD (dest : Dest) (jump : Jump)
  /-- `[dest=]-A[;jump]` (R128). -/
  | negA (dest : Dest) (jump : Jump)
  /-- `[dest=]D+1[;jump]` (R129). -/
  | incD (dest : Dest) (jump : Jump)
  /-- `[dest=]A+1[;jump]` (R130). -/
  | incA (dest : Dest) (jump : Jump)
  /-- `[dest=]D-1[;jump]` (R131). -/
  | decD (dest : Dest) (jump : Jump)
  /-- `[dest=]A-1[;jump]` (R132). -/
  | decA (dest : Dest) (jump : Jump)
  /-- `[dest=]D+A[;jump]` (R133). -/
  | dPlusA (dest : Dest) (jump : Jump)
  /-- `[dest=]D-A[;jump]` (R134). -/
  | dMinusA (dest : Dest) (jump : Jump)
  /-- `[dest=]A-D[;jump]` (R135). -/
  | aMinusD (dest : Dest) (jump : Jump)
  /-- `[dest=]D&A[;jump]` (R136). -/
  | dAndA (dest : Dest) (jump : Jump)
  /-- `[dest=]D|A[;jump]` (R137). -/
  | dOrA (dest : Dest) (jump : Jump)
  /-- `[dest=]M[;jump]` (R138). -/
  | passM (dest : Dest) (jump : Jump)
  /-- `[dest=]!M[;jump]` (R139). -/
  | notM (dest : Dest) (jump : Jump)
  /-- `[dest=]-M[;jump]` (R140). -/
  | negM (dest : Dest) (jump : Jump)
  /-- `[dest=]M+1[;jump]` (R141). -/
  | incM (dest : Dest) (jump : Jump)
  /-- `[dest=]M-1[;jump]` (R142). -/
  | decM (dest : Dest) (jump : Jump)
  /-- `[dest=]D+M[;jump]` (R143). -/
  | dPlusM (dest : Dest) (jump : Jump)
  /-- `[dest=]D-M[;jump]` (R144). -/
  | dMinusM (dest : Dest) (jump : Jump)
  /-- `[dest=]M-D[;jump]` (R145). -/
  | mMinusD (dest : Dest) (jump : Jump)
  /-- `[dest=]D&M[;jump]` (R146). -/
  | dAndM (dest : Dest) (jump : Jump)
  /-- `[dest=]D|M[;jump]` (R147). -/
  | dOrM (dest : Dest) (jump : Jump)
  /-- `C-unnamed` (R150): a computation code that has no mnemonic. -/
  | unnamed (y : YSource) (control : AluControl) (dest : Dest) (jump : Jump)
  deriving DecidableEq, Repr

end Sys2Proof
end

