-- ==== Sys2Proof/WellFormed.lean ====
section
/-! DEFINITION. Which instruction terms stand for a word. The one check: a `C-unnamed` term carries one of the 100
computation codes that have no mnemonic (41_alu.md R150); every other bound is in the types of the fields. -/

namespace Sys2Proof

/-- The 28 computation codes `a zx nx zy ny f no` that have a mnemonic (30_encoding.md R73), as operand select and
control bits. -/
def namedCodes : List (YSource × AluControl) :=
  -- a = 0: 0, 1, -1
  [(.regA, ⟨true, false, true, false, true, false⟩), (.regA, ⟨true, true, true, true, true, true⟩),
   (.regA, ⟨true, true, true, false, true, false⟩),
  -- a = 0: D, A, !D, !A, -D, -A
   (.regA, ⟨false, false, true, true, false, false⟩), (.regA, ⟨true, true, false, false, false, false⟩),
   (.regA, ⟨false, false, true, true, false, true⟩), (.regA, ⟨true, true, false, false, false, true⟩),
   (.regA, ⟨false, false, true, true, true, true⟩), (.regA, ⟨true, true, false, false, true, true⟩),
  -- a = 0: D+1, A+1, D-1, A-1
   (.regA, ⟨false, true, true, true, true, true⟩), (.regA, ⟨true, true, false, true, true, true⟩),
   (.regA, ⟨false, false, true, true, true, false⟩), (.regA, ⟨true, true, false, false, true, false⟩),
  -- a = 0: D+A, D-A, A-D, D&A, D|A
   (.regA, ⟨false, false, false, false, true, false⟩), (.regA, ⟨false, true, false, false, true, true⟩),
   (.regA, ⟨false, false, false, true, true, true⟩), (.regA, ⟨false, false, false, false, false, false⟩),
   (.regA, ⟨false, true, false, true, false, true⟩),
  -- a = 1: M, !M, -M, M+1, M-1
   (.mem, ⟨true, true, false, false, false, false⟩), (.mem, ⟨true, true, false, false, false, true⟩),
   (.mem, ⟨true, true, false, false, true, true⟩), (.mem, ⟨true, true, false, true, true, true⟩),
   (.mem, ⟨true, true, false, false, true, false⟩),
  -- a = 1: D+M, D-M, M-D, D&M, D|M
   (.mem, ⟨false, false, false, false, true, false⟩), (.mem, ⟨false, true, false, false, true, true⟩),
   (.mem, ⟨false, false, false, true, true, true⟩), (.mem, ⟨false, false, false, false, false, false⟩),
   (.mem, ⟨false, true, false, true, false, true⟩)]

/-- `C-unnamed` has the lowest priority in opcode_table.json: it applies only to codes that match no named row. -/
def Instr.wellFormed : Instr → Bool
  | .unnamed y c _ _ => !namedCodes.contains (y, c)
  | .atValue _ => true
  | .zero _ _ => true
  | .one _ _ => true
  | .minusOne _ _ => true
  | .passD _ _ => true
  | .passA _ _ => true
  | .notD _ _ => true
  | .notA _ _ => true
  | .negD _ _ => true
  | .negA _ _ => true
  | .incD _ _ => true
  | .incA _ _ => true
  | .decD _ _ => true
  | .decA _ _ => true
  | .dPlusA _ _ => true
  | .dMinusA _ _ => true
  | .aMinusD _ _ => true
  | .dAndA _ _ => true
  | .dOrA _ _ => true
  | .passM _ _ => true
  | .notM _ _ => true
  | .negM _ _ => true
  | .incM _ _ => true
  | .decM _ _ => true
  | .dPlusM _ _ => true
  | .dMinusM _ _ => true
  | .mMinusD _ _ => true
  | .dAndM _ _ => true
  | .dOrM _ _ => true

end Sys2Proof
end

