-- ==== Sys2Proof/Decode.lean ====
section
/-! DEFINITION. The decoder (30_encoding.md R61 to R68), total on all 65536 words (R69: no word is refused), and after
it the encoder (R62, R63, R91), written from the same tables of the spec. -/

namespace Sys2Proof

/-! ### Fields -/

/-- The a-bit, word bit 12 (30_encoding.md R63): 0 selects A, 1 selects M. -/
def YSource.ofBit (a : Bool) : YSource := if a then .mem else .regA

/-- `zx nx zy ny f no` from the six control bits, `zx` the most significant (30_encoding.md R65). -/
def AluControl.ofBits (c : BitVec 6) : AluControl :=
  { zx := c.getLsbD 5, nx := c.getLsbD 4, zy := c.getLsbD 3, ny := c.getLsbD 2, f := c.getLsbD 1, no := c.getLsbD 0 }

/-- `dA dD dM` from the three destination bits, `dA` the most significant (30_encoding.md R66). -/
def Dest.ofBits (d : BitVec 3) : Dest :=
  { dA := d.getLsbD 2, dD := d.getLsbD 1, dM := d.getLsbD 0 }

/-- `jLT jEQ jGT` from the three jump bits, `jLT` the most significant (30_encoding.md R67). -/
def Jump.ofBits (j : BitVec 3) : Jump :=
  { jLT := j.getLsbD 2, jEQ := j.getLsbD 1, jGT := j.getLsbD 0 }

/-! ### Decoder -/

/-- The 28 rows of 30_encoding.md R73: the computation code `a zx nx zy ny f no`, and the instruction it stands
for. -/
def namedRows : List (BitVec 7 × (Dest → Jump → Instr)) :=
  [(0b0101010#7, .zero), (0b0111111#7, .one), (0b0111010#7, .minusOne),
   (0b0001100#7, .passD), (0b0110000#7, .passA), (0b0001101#7, .notD), (0b0110001#7, .notA),
   (0b0001111#7, .negD), (0b0110011#7, .negA),
   (0b0011111#7, .incD), (0b0110111#7, .incA), (0b0001110#7, .decD), (0b0110010#7, .decA),
   (0b0000010#7, .dPlusA), (0b0010011#7, .dMinusA), (0b0000111#7, .aMinusD), (0b0000000#7, .dAndA),
   (0b0010101#7, .dOrA),
   (0b1110000#7, .passM), (0b1110001#7, .notM), (0b1110011#7, .negM), (0b1110111#7, .incM),
   (0b1110010#7, .decM),
   (0b1000010#7, .dPlusM), (0b1010011#7, .dMinusM), (0b1000111#7, .mMinusD), (0b1000000#7, .dAndM),
   (0b1010101#7, .dOrM)]

/-- The instruction of a command word's fields: its row of R73, and for every other code `C-unnamed` (41_alu.md
R150). -/
def decodeCommand (code : BitVec 7) (d : Dest) (j : Jump) : Instr :=
  match namedRows.lookup code with
  | some mk => mk d j
  | none => .unnamed (YSource.ofBit (code.getLsbD 6)) (AluControl.ofBits (code.extractLsb' 0 6)) d j

/-- The instruction a word holds. Bit 15 alone tells the format (30_encoding.md R61); bits 14:13 of a command word are
not read (R68). -/
def decode (w : Word) : Instr :=
  if w.getLsbD 15 then
    decodeCommand (w.extractLsb' 6 7) (Dest.ofBits (w.extractLsb' 3 3)) (Jump.ofBits (w.extractLsb' 0 3))
  else
    .atValue (w.extractLsb' 0 15)

/-- The decoder on a word of opcode_table.json (every row has 16 bits; a longer number is cut to its low `nbits` bits
and then to one word). No word is refused (30_encoding.md R69). -/
def decodeTableWord (nbits w : Nat) : Option Instr :=
  some (decode (BitVec.ofNat 16 (w % 2 ^ nbits)))

/-! ### Encoder -/

/-- The a-bit of an operand select. -/
def YSource.toBit : YSource → Bool
  | .regA => false
  | .mem => true

/-- The six control bits, `zx` first (30_encoding.md R63). -/
def AluControl.toBits (c : AluControl) : BitVec 6 :=
  BitVec.ofBool c.zx ++ BitVec.ofBool c.nx ++ BitVec.ofBool c.zy ++ BitVec.ofBool c.ny ++ BitVec.ofBool c.f ++
    BitVec.ofBool c.no

/-- The three destination bits, `dA` first (30_encoding.md R74). -/
def Dest.toBits (d : Dest) : BitVec 3 :=
  BitVec.ofBool d.dA ++ BitVec.ofBool d.dD ++ BitVec.ofBool d.dM

/-- The three jump bits, `jLT` first (30_encoding.md R75). -/
def Jump.toBits (j : Jump) : BitVec 3 :=
  BitVec.ofBool j.jLT ++ BitVec.ofBool j.jEQ ++ BitVec.ofBool j.jGT

/-- The command word `111 comp dest jump` (30_encoding.md R91). -/
def commandWord (code : BitVec 7) (d : Dest) (j : Jump) : Word :=
  0b111#3 ++ code ++ d.toBits ++ j.toBits

/-- The word the assembler emits for an instruction (30_encoding.md R62, R73, R91). -/
def encode : Instr → Word
  | .atValue v => 0b0#1 ++ v
  | .zero d j => commandWord 0b0101010#7 d j
  | .one d j => commandWord 0b0111111#7 d j
  | .minusOne d j => commandWord 0b0111010#7 d j
  | .passD d j => commandWord 0b0001100#7 d j
  | .passA d j => commandWord 0b0110000#7 d j
  | .notD d j => commandWord 0b0001101#7 d j
  | .notA d j => commandWord 0b0110001#7 d j
  | .negD d j => commandWord 0b0001111#7 d j
  | .negA d j => commandWord 0b0110011#7 d j
  | .incD d j => commandWord 0b0011111#7 d j
  | .incA d j => commandWord 0b0110111#7 d j
  | .decD d j => commandWord 0b0001110#7 d j
  | .decA d j => commandWord 0b0110010#7 d j
  | .dPlusA d j => commandWord 0b0000010#7 d j
  | .dMinusA d j => commandWord 0b0010011#7 d j
  | .aMinusD d j => commandWord 0b0000111#7 d j
  | .dAndA d j => commandWord 0b0000000#7 d j
  | .dOrA d j => commandWord 0b0010101#7 d j
  | .passM d j => commandWord 0b1110000#7 d j
  | .notM d j => commandWord 0b1110001#7 d j
  | .negM d j => commandWord 0b1110011#7 d j
  | .incM d j => commandWord 0b1110111#7 d j
  | .decM d j => commandWord 0b1110010#7 d j
  | .dPlusM d j => commandWord 0b1000010#7 d j
  | .dMinusM d j => commandWord 0b1010011#7 d j
  | .mMinusD d j => commandWord 0b1000111#7 d j
  | .dAndM d j => commandWord 0b1000000#7 d j
  | .dOrM d j => commandWord 0b1010101#7 d j
  | .unnamed y c d j => commandWord (BitVec.ofBool y.toBit ++ c.toBits) d j

/-! ### The parts of a decoded instruction -/

/-- Whether an instruction is a command instruction (word bit 15, 30_encoding.md R61: `isC` of R64). -/
def Instr.isCommand : Instr → Bool
  | .atValue _ => false
  | .zero _ _ | .one _ _ | .minusOne _ _ | .passD _ _ | .passA _ _ | .notD _ _ | .notA _ _ | .negD _ _ | .negA _ _
  | .incD _ _ | .incA _ _ | .decD _ _ | .decA _ _ | .dPlusA _ _ | .dMinusA _ _ | .aMinusD _ _ | .dAndA _ _
  | .dOrA _ _ | .passM _ _ | .notM _ _ | .negM _ _ | .incM _ _ | .decM _ _ | .dPlusM _ _ | .dMinusM _ _
  | .mMinusD _ _ | .dAndM _ _ | .dOrM _ _ | .unnamed _ _ _ _ => true

/-- The destination bits of an instruction; an address instruction has none (30_encoding.md R64). -/
def Instr.dest : Instr → Dest
  | .atValue _ => ⟨false, false, false⟩
  | .zero d _ | .one d _ | .minusOne d _ | .passD d _ | .passA d _ | .notD d _ | .notA d _ | .negD d _ | .negA d _
  | .incD d _ | .incA d _ | .decD d _ | .decA d _ | .dPlusA d _ | .dMinusA d _ | .aMinusD d _ | .dAndA d _
  | .dOrA d _ | .passM d _ | .notM d _ | .negM d _ | .incM d _ | .decM d _ | .dPlusM d _ | .dMinusM d _
  | .mMinusD d _ | .dAndM d _ | .dOrM d _ | .unnamed _ _ d _ => d

/-- The jump bits of an instruction; an address instruction has none (30_encoding.md R64). -/
def Instr.jump : Instr → Jump
  | .atValue _ => ⟨false, false, false⟩
  | .zero _ j | .one _ j | .minusOne _ j | .passD _ j | .passA _ j | .notD _ j | .notA _ j | .negD _ j | .negA _ j
  | .incD _ j | .incA _ j | .decD _ j | .decA _ j | .dPlusA _ j | .dMinusA _ j | .aMinusD _ j | .dAndA _ j
  | .dOrA _ j | .passM _ j | .notM _ j | .negM _ j | .incM _ j | .decM _ j | .dPlusM _ j | .dMinusM _ j
  | .mMinusD _ j | .dAndM _ j | .dOrM _ j | .unnamed _ _ _ j => j

end Sys2Proof
end

