-- ==== Sys2Proof/Machine/Alu.lean ====
section
/-! DEFINITION. The ALU (41_alu.md R110, R111): a function of six control bits and two operands. -/

namespace Sys2Proof.Machine

/-- One ALU input after its zeroing and complementing stages, zeroing first (41_alu.md R111). -/
def conditionInput (zero complement : Bool) (v : Word) : Word :=
  let v1 := if zero then 0 else v
  if complement then ~~~v1 else v1

/-- `alu(c, x, y)` (41_alu.md R111). -/
def alu (c : AluControl) (x y : Word) : Word :=
  let x2 := conditionInput c.zx c.nx x
  let y2 := conditionInput c.zy c.ny y
  let o := if c.f then x2 + y2 else x2 &&& y2
  if c.no then ~~~o else o

end Sys2Proof.Machine
end

