-- ==== Sys2Proof/Machine/Flags.lean ====
section
/-! DEFINITION. The status signals and the jump condition. They are signals of one instruction and no state
(10_state.md R25). -/

namespace Sys2Proof.Machine

/-- `zr = 1` iff the result is 0 (41_alu.md R112). -/
def zr (out : Word) : Bool := out == 0

/-- `ng` is bit 15 of the result (41_alu.md R112). -/
def ng (out : Word) : Bool := out.getLsbD 15

/-- `cond(j, out)` of 43_jump.md R190. -/
def taken (j : Jump) (out : Word) : Bool :=
  (j.jLT && ng out) || (j.jEQ && zr out) || (j.jGT && !ng out && !zr out)

end Sys2Proof.Machine
end

