-- ==== Sys2Proof/Config.lean ====
section
/-! DEFINITION. The parameters of the NTT core (00_scope.md R5). -/

namespace Sys2Proof.Config

/-- Number of data-memory words (20_memory.md R40: addresses 0x0000..0xFFFF). -/
abbrev dataWords : Nat := 65536

/-- Greatest ROM_LEN (10_state.md R29: 0 <= ROM_LEN <= 32768). -/
abbrev romMax : Nat := 32768

/-- Greatest value of a 15-bit literal (30_encoding.md R70, R83). -/
abbrev literalMax : Nat := 32767

/-- First address the assembler gives to a variable (30_encoding.md R89). -/
abbrev variableBase : Nat := 16

/-- What a data address that was never written reads as (20_memory.md R41). -/
def unwritten : Word := 0

/-- INIT_A of `State.reset`. DESIGN CHOICE (log entry 3), unsafe: the spec leaves INIT_A an OPEN parameter
(70_reset_and_hazards.md R250); `State.start` takes every value of it. -/
abbrev initA : Word := 0

/-- INIT_D of `State.reset`. DESIGN CHOICE (log entry 3), unsafe: the spec leaves INIT_D an OPEN parameter
(70_reset_and_hazards.md R250); `State.start` takes every value of it. -/
abbrev initD : Word := 0

end Sys2Proof.Config
end

