-- ==== Sys2Proof/Machine/State.lean ====
section
/-! DEFINITION. The architectural state (10_state.md R20), its reset value, and the reasons a run can stop. -/

namespace Sys2Proof.Machine

/-- The reasons a step can fault: none. The core raises no exception (60_exceptions.md R230), every word decodes and
every address is readable and writable, so the type has no constructor. -/
inductive Fault where
  deriving DecidableEq, Repr

/-- The reasons a run is refused. `notModelled` belongs to exec's arms; every other one refuses the LAUNCH of a run,
before its first step (60_exceptions.md R237), and no step raises it. -/
inductive Refusal where
  /-- An instruction without a meaning in `exec` (no arm raises it in this model). Safe: nothing is claimed of it. -/
  | notModelled (mnemonic : String)
  /-- Raised by `launch`: InvalidMnemonic, and MalformedAddressLiteral, which is treated as it (30_encoding.md R94).
  Safe: no run starts. -/
  | invalidMnemonic
  /-- Raised by `launch`: one label bound to two addresses (30_encoding.md R90, R94). Safe: no run starts. -/
  | duplicateLabelDefinition
  /-- Raised by `launch`: a line that begins with `(` and is no `(symbol)`; the spec names no error for it (DESIGN
  CHOICE, log entry 15). Safe: no run starts. -/
  | malformedLabelDeclaration
  /-- Raised by `launch`: a binary line that is not 16 characters of 0 and 1 (30_encoding.md R95). Safe: no run
  starts. -/
  | malformedBinaryLine
  /-- Raised by `launch`: a program of more than 32768 words (10_state.md R29). Safe: no run starts. -/
  | programTooLong
  /-- Raised by `launch`: a budget that is neither a natural number nor the sentinel (60_exceptions.md R237). Safe: no
  run starts. -/
  | invalidBudget
  deriving DecidableEq, Repr

/-- The cycle budget (10_state.md R28): a natural number or UNLIMITED. -/
inductive Budget where
  | limited (n : Nat)
  | unlimited
  deriving DecidableEq, Repr

/-- Data memory as (address, word) pairs: addresses strictly rising, no word equal to what an unlisted address reads as
(`Memory.wf`). The cell is a word, since the spec has no unit smaller than a word (20_memory.md R43; log entry 1). -/
abbrev Memory := List (Nat × Word)

/-- The state tuple of 10_state.md R20, with the program beside it. -/
structure State where
  /-- Register A (10_state.md R21). -/
  regA : Word
  /-- Register D (10_state.md R22). -/
  regD : Word
  /-- The program counter: the index in ROM of the instruction being executed (10_state.md R24). -/
  pc : Word
  /-- MEM (20_memory.md R40). -/
  mem : Memory
  /-- WRITTEN, the addresses written during the run (10_state.md R30), strictly rising. -/
  written : List Nat
  /-- BUDGET (10_state.md R28). -/
  budget : Budget
  /-- ROM, the program; ROM_LEN is its length (10_state.md R29). DESIGN CHOICE (log entry 2): the spec calls it a
  parameter of the step; it stands in State, and no step changes it. -/
  rom : List Word
  deriving DecidableEq, Repr

/-- The state at the start of a run (70_reset_and_hazards.md R250) with the OPEN parameters INIT_A and INIT_D, the
host's program and the host's budget. -/
def State.start (initA initD : Word) (budget : Budget) (rom : List Word) : State :=
  { regA := initA, regD := initD, pc := 0, mem := [], written := [], budget := budget, rom := rom }

/-- The state right after reset with nothing loaded. DESIGN CHOICE (log entries 3 and 4), unsafe: INIT_A = INIT_D = 0,
an UNLIMITED budget and an empty ROM, which the spec leaves to the host; every other field as R250 says. -/
def State.reset : State := State.start Config.initA Config.initD .unlimited []

end Sys2Proof.Machine
end

