-- ==== Sys2Proof/Machine/Ops.lean ====
section
/-! DEFINITION. The named operations over data memory and the state. The spec has no exception to take and none to
return from (60_exceptions.md R230, R233, R234), so no such operation stands here. -/

namespace Sys2Proof.Machine

/-! ### Data memory -/

/-- The canonical form: addresses strictly rising and below 65536, no word equal to what an unlisted address reads
as. -/
abbrev Memory.wf (m : Memory) : Prop :=
  m.Pairwise (fun x y => x.1 < y.1) ∧ ∀ c ∈ m, c.1 < Config.dataWords ∧ c.2 ≠ Config.unwritten

/-- `MEM[addr]`; an address never written reads 0 (20_memory.md R41). -/
def Memory.read : Memory → Nat → Word
  | [], _ => Config.unwritten
  | (k, u) :: m, a => if k = a then u else Memory.read m a

/-- `MEM[addr] <- v` (20_memory.md R42), keeping the canonical form. -/
def Memory.write : Memory → Nat → Word → Memory
  | [], a, v => if v = Config.unwritten then [] else [(a, v)]
  | (k, u) :: m, a, v =>
    if k < a then (k, u) :: Memory.write m a v
    else
      let rest := if k = a then m else (k, u) :: m
      if v = Config.unwritten then rest else (a, v) :: rest

/-- The canonical form of WRITTEN: strictly rising addresses below 65536 (10_state.md R30: a set of addresses). -/
abbrev WrittenSet.wf (l : List Nat) : Prop :=
  l.Pairwise (· < ·) ∧ ∀ a ∈ l, a < Config.dataWords

/-- `WRITTEN ∪ {addr}` (20_memory.md R42) on the rising list. -/
def WrittenSet.insert : List Nat → Nat → List Nat
  | [], a => [a]
  | k :: l, a => if k < a then k :: WrittenSet.insert l a else if k = a then k :: l else a :: k :: l

/-! ### Reads and writes of the state -/

/-- `MemRead(addr, 1)` (20_memory.md R41): no side effect. -/
def State.memRead (s : State) (a : Word) : Word := s.mem.read a.toNat

/-- `MemWrite(addr, 1, v)` (20_memory.md R42): the word and the WRITTEN entry, whatever the value (10_state.md R30). -/
def State.memWrite (s : State) (a v : Word) : State :=
  { s with mem := s.mem.write a.toNat v, written := WrittenSet.insert s.written a.toNat }

/-- The "register" Rk of the register file R0..R15: the data-memory word at address k, no state of its own (10_state.md
R27). -/
def State.fileRegister (s : State) (k : Fin 16) : Word := s.memRead (BitVec.ofNat 16 k)

/-- `A <- v` (00_scope.md R9). -/
def State.setA (s : State) (v : Word) : State := { s with regA := v }

/-- `D <- v` (00_scope.md R9). -/
def State.setD (s : State) (v : Word) : State := { s with regD := v }

/-- `pc <- v` (00_scope.md R9). -/
def State.setPc (s : State) (v : Word) : State := { s with pc := v }

/-- `BUDGET <- b`; only the sequencer does this (10_state.md R28). -/
def State.setBudget (s : State) (b : Budget) : State := { s with budget := b }

/-! ### Writeback and branch -/

/-- The three independent writes of 42_command.md R160. `aOld` is A at the start of the step: the memory write goes
there, whatever A becomes (R170). -/
def State.receive (s : State) (d : Dest) (aOld out : Word) : State :=
  let s := if d.dM then s.memWrite aOld out else s
  let s := if d.dD then s.setD out else s
  if d.dA then s.setA out else s

/-- Phase 3 of a command instruction with result `out`: the writes, then the next PC, which is the old A if the jump
condition holds (42_command.md R160; 43_jump.md R199, R200; log entry 6). -/
def writeback (d : Dest) (j : Jump) (out : Word) (s : State) : State :=
  (s.receive d s.regA out).setPc (if taken j out then s.regA else s.pc + 1)

end Sys2Proof.Machine
end

