-- ==== Sys2Proof/Machine/Address.lean ====
section
/-! DEFINITION. Meaning of the address instruction (40_address_instruction.md R100). -/

namespace Sys2Proof.Machine

/-- `@value`: A receives the literal, zero-extended; no ALU, no jump (40_address_instruction.md R100). -/
def execAtValue (v : BitVec 15) (s : State) : Host.Outcome State Fault Refusal :=
  .next ((s.setA (v.zeroExtend 16)).setPc (s.pc + 1))

end Sys2Proof.Machine
end

