-- ==== Sys2Proof/Machine/Operands.lean ====
section
/-! DEFINITION. The operands of a command instruction, and the instruction class over them. -/

namespace Sys2Proof.Machine

/-- The y operand (42_command.md R161): A, or the memory word at A, which reads 0 if never written. -/
def operandY (y : YSource) (s : State) : Word :=
  match y with
  | .regA => s.regA
  | .mem => s.memRead s.regA

/-- A command instruction (42_command.md R160): the ALU on D and the y operand, then writeback and branch. -/
def command (y : YSource) (c : AluControl) (d : Dest) (j : Jump) (s : State) : State :=
  writeback d j (alu c s.regD (operandY y s)) s

end Sys2Proof.Machine
end

