-- ==== Sys2Proof/Machine/Constants.lean ====
section
/-! DEFINITION. Meanings of the constant computations `0 1 -1` (41_alu.md R120 to R122). -/

namespace Sys2Proof.Machine

/-- `0`: constant zero (41_alu.md R120). -/
def execZero (d : Dest) (j : Jump) (s : State) : Host.Outcome State Fault Refusal :=
  .next (command .regA (AluControl.ofBits 0b101010#6) d j s)

/-- `1`: constant one (41_alu.md R121). -/
def execOne (d : Dest) (j : Jump) (s : State) : Host.Outcome State Fault Refusal :=
  .next (command .regA (AluControl.ofBits 0b111111#6) d j s)

/-- `-1`: constant minus one (41_alu.md R122). -/
def execMinusOne (d : Dest) (j : Jump) (s : State) : Host.Outcome State Fault Refusal :=
  .next (command .regA (AluControl.ofBits 0b111010#6) d j s)

end Sys2Proof.Machine
end

