-- ==== Sys2Proof/Machine/MemoryComps.lean ====
section
/-! DEFINITION. Meanings of the computations that read the memory operand M, a-bit 1 (41_alu.md R138 to R147). The control
pattern of each row is written `zx nx zy ny f no` (30_encoding.md R73). -/

namespace Sys2Proof.Machine

/-- `M`: pass the memory operand (41_alu.md R138). -/
def execPassM (d : Dest) (j : Jump) (s : State) : Host.Outcome State Fault Refusal :=
  .next (command .mem (AluControl.ofBits 0b110000#6) d j s)

/-- `!M`: bitwise NOT of M (41_alu.md R139). -/
def execNotM (d : Dest) (j : Jump) (s : State) : Host.Outcome State Fault Refusal :=
  .next (command .mem (AluControl.ofBits 0b110001#6) d j s)

/-- `-M`: negation of M (41_alu.md R140). -/
def execNegM (d : Dest) (j : Jump) (s : State) : Host.Outcome State Fault Refusal :=
  .next (command .mem (AluControl.ofBits 0b110011#6) d j s)

/-- `M+1`: increment M (41_alu.md R141). -/
def execIncM (d : Dest) (j : Jump) (s : State) : Host.Outcome State Fault Refusal :=
  .next (command .mem (AluControl.ofBits 0b110111#6) d j s)

/-- `M-1`: decrement M (41_alu.md R142). -/
def execDecM (d : Dest) (j : Jump) (s : State) : Host.Outcome State Fault Refusal :=
  .next (command .mem (AluControl.ofBits 0b110010#6) d j s)

/-- `D+M`: add memory (41_alu.md R143). -/
def execDPlusM (d : Dest) (j : Jump) (s : State) : Host.Outcome State Fault Refusal :=
  .next (command .mem (AluControl.ofBits 0b000010#6) d j s)

/-- `D-M`: subtract memory from D (41_alu.md R144). -/
def execDMinusM (d : Dest) (j : Jump) (s : State) : Host.Outcome State Fault Refusal :=
  .next (command .mem (AluControl.ofBits 0b010011#6) d j s)

/-- `M-D`: subtract D from memory (41_alu.md R145). -/
def execMMinusD (d : Dest) (j : Jump) (s : State) : Host.Outcome State Fault Refusal :=
  .next (command .mem (AluControl.ofBits 0b000111#6) d j s)

/-- `D&M`: AND with memory (41_alu.md R146). -/
def execDAndM (d : Dest) (j : Jump) (s : State) : Host.Outcome State Fault Refusal :=
  .next (command .mem (AluControl.ofBits 0b000000#6) d j s)

/-- `D|M`: OR with memory (41_alu.md R147). -/
def execDOrM (d : Dest) (j : Jump) (s : State) : Host.Outcome State Fault Refusal :=
  .next (command .mem (AluControl.ofBits 0b010101#6) d j s)

end Sys2Proof.Machine
end

