-- ==== Sys2Proof/Machine/RegisterComps.lean ====
section
/-! DEFINITION. Meanings of the computations over D and A, a-bit 0 (41_alu.md R123 to R137). The control pattern of each row
is written `zx nx zy ny f no` (30_encoding.md R73). -/

namespace Sys2Proof.Machine

/-- `D`: pass D (41_alu.md R123). -/
def execPassD (d : Dest) (j : Jump) (s : State) : Host.Outcome State Fault Refusal :=
  .next (command .regA (AluControl.ofBits 0b001100#6) d j s)

/-- `A`: pass A (41_alu.md R124). -/
def execPassA (d : Dest) (j : Jump) (s : State) : Host.Outcome State Fault Refusal :=
  .next (command .regA (AluControl.ofBits 0b110000#6) d j s)

/-- `!D`: bitwise NOT of D (41_alu.md R125). -/
def execNotD (d : Dest) (j : Jump) (s : State) : Host.Outcome State Fault Refusal :=
  .next (command .regA (AluControl.ofBits 0b001101#6) d j s)

/-- `!A`: bitwise NOT of A (41_alu.md R126). -/
def execNotA (d : Dest) (j : Jump) (s : State) : Host.Outcome State Fault Refusal :=
  .next (command .regA (AluControl.ofBits 0b110001#6) d j s)

/-- `-D`: two's-complement negation of D (41_alu.md R127). -/
def execNegD (d : Dest) (j : Jump) (s : State) : Host.Outcome State Fault Refusal :=
  .next (command .regA (AluControl.ofBits 0b001111#6) d j s)

/-- `-A`: two's-complement negation of A (41_alu.md R128). -/
def execNegA (d : Dest) (j : Jump) (s : State) : Host.Outcome State Fault Refusal :=
  .next (command .regA (AluControl.ofBits 0b110011#6) d j s)

/-- `D+1`: increment D (41_alu.md R129). -/
def execIncD (d : Dest) (j : Jump) (s : State) : Host.Outcome State Fault Refusal :=
  .next (command .regA (AluControl.ofBits 0b011111#6) d j s)

/-- `A+1`: increment A (41_alu.md R130). -/
def execIncA (d : Dest) (j : Jump) (s : State) : Host.Outcome State Fault Refusal :=
  .next (command .regA (AluControl.ofBits 0b110111#6) d j s)

/-- `D-1`: decrement D (41_alu.md R131). -/
def execDecD (d : Dest) (j : Jump) (s : State) : Host.Outcome State Fault Refusal :=
  .next (command .regA (AluControl.ofBits 0b001110#6) d j s)

/-- `A-1`: decrement A (41_alu.md R132). -/
def execDecA (d : Dest) (j : Jump) (s : State) : Host.Outcome State Fault Refusal :=
  .next (command .regA (AluControl.ofBits 0b110010#6) d j s)

/-- `D+A`: add (41_alu.md R133). -/
def execDPlusA (d : Dest) (j : Jump) (s : State) : Host.Outcome State Fault Refusal :=
  .next (command .regA (AluControl.ofBits 0b000010#6) d j s)

/-- `D-A`: subtract A from D (41_alu.md R134). -/
def execDMinusA (d : Dest) (j : Jump) (s : State) : Host.Outcome State Fault Refusal :=
  .next (command .regA (AluControl.ofBits 0b010011#6) d j s)

/-- `A-D`: subtract D from A (41_alu.md R135). -/
def execAMinusD (d : Dest) (j : Jump) (s : State) : Host.Outcome State Fault Refusal :=
  .next (command .regA (AluControl.ofBits 0b000111#6) d j s)

/-- `D&A`: bitwise AND (41_alu.md R136). -/
def execDAndA (d : Dest) (j : Jump) (s : State) : Host.Outcome State Fault Refusal :=
  .next (command .regA (AluControl.ofBits 0b000000#6) d j s)

/-- `D|A`: bitwise OR (41_alu.md R137). -/
def execDOrA (d : Dest) (j : Jump) (s : State) : Host.Outcome State Fault Refusal :=
  .next (command .regA (AluControl.ofBits 0b010101#6) d j s)

end Sys2Proof.Machine
end

