-- ==== Sys2Proof/Machine/Unnamed.lean ====
section
/-! DEFINITION. Meaning of the computation codes without a mnemonic (41_alu.md R150). -/

namespace Sys2Proof.Machine

/-- `C-unnamed`: the ALU rule on whatever bits the word holds (41_alu.md R150; log entry 8). -/
def execUnnamed (y : YSource) (c : AluControl) (d : Dest) (j : Jump) (s : State) : Host.Outcome State Fault Refusal :=
  .next (command y c d j s)

end Sys2Proof.Machine
end

