-- ==== Sys2Proof/Machine/Dispatch.lean ====
section
/-! DEFINITION. The meaning of an instruction: one arm per constructor of Instr. -/

namespace Sys2Proof.Machine

def exec (i : Instr) (s : State) : Host.Outcome State Fault Refusal :=
  match i with
  | .atValue v => Sys2Proof.Machine.execAtValue v s
  | .zero d j => Sys2Proof.Machine.execZero d j s
  | .one d j => Sys2Proof.Machine.execOne d j s
  | .minusOne d j => Sys2Proof.Machine.execMinusOne d j s
  | .passD d j => Sys2Proof.Machine.execPassD d j s
  | .passA d j => Sys2Proof.Machine.execPassA d j s
  | .notD d j => Sys2Proof.Machine.execNotD d j s
  | .notA d j => Sys2Proof.Machine.execNotA d j s
  | .negD d j => Sys2Proof.Machine.execNegD d j s
  | .negA d j => Sys2Proof.Machine.execNegA d j s
  | .incD d j => Sys2Proof.Machine.execIncD d j s
  | .incA d j => Sys2Proof.Machine.execIncA d j s
  | .decD d j => Sys2Proof.Machine.execDecD d j s
  | .decA d j => Sys2Proof.Machine.execDecA d j s
  | .dPlusA d j => Sys2Proof.Machine.execDPlusA d j s
  | .dMinusA d j => Sys2Proof.Machine.execDMinusA d j s
  | .aMinusD d j => Sys2Proof.Machine.execAMinusD d j s
  | .dAndA d j => Sys2Proof.Machine.execDAndA d j s
  | .dOrA d j => Sys2Proof.Machine.execDOrA d j s
  | .passM d j => Sys2Proof.Machine.execPassM d j s
  | .notM d j => Sys2Proof.Machine.execNotM d j s
  | .negM d j => Sys2Proof.Machine.execNegM d j s
  | .incM d j => Sys2Proof.Machine.execIncM d j s
  | .decM d j => Sys2Proof.Machine.execDecM d j s
  | .dPlusM d j => Sys2Proof.Machine.execDPlusM d j s
  | .dMinusM d j => Sys2Proof.Machine.execDMinusM d j s
  | .mMinusD d j => Sys2Proof.Machine.execMMinusD d j s
  | .dAndM d j => Sys2Proof.Machine.execDAndM d j s
  | .dOrM d j => Sys2Proof.Machine.execDOrM d j s
  | .unnamed y c d j => Sys2Proof.Machine.execUnnamed y c d j s

end Sys2Proof.Machine
end

