-- ==== Sys2Proof/Machine/Sequencer.lean ====
section
/-! DEFINITION. The sequencer's parts (44_sequencer.md R210 to R213): halting, fetching, counting the budget. -/

namespace Sys2Proof.Machine

/-- `BUDGET = 0`; UNLIMITED never halts the core (44_sequencer.md R211, R212). -/
def Budget.exhausted : Budget → Bool
  | .limited n => n == 0
  | .unlimited => false

/-- The budget after one executed instruction (44_sequencer.md R212). -/
def Budget.spend : Budget → Budget
  | .limited n => .limited (n - 1)
  | .unlimited => .unlimited

/-- Halted iff `PC >= ROM_LEN` or `BUDGET = 0` (44_sequencer.md R211). -/
def State.halted (s : State) : Bool := decide (s.rom.length ≤ s.pc.toNat) || s.budget.exhausted

/-- `w = ROM[PC]` (44_sequencer.md R213); the default word is never read, since a step fetches only when PC < ROM_LEN. -/
def State.fetch (s : State) : Word := s.rom.getD s.pc.toNat 0

/-- The end of a step: the budget is spent, whichever instruction ran (44_sequencer.md R212). -/
def spendBudget (o : Host.Outcome State Fault Refusal) : Host.Outcome State Fault Refusal :=
  match o with
  | .next s => .next (s.setBudget s.budget.spend)
  | .fault r => .fault r
  | .refused r => .refused r

/-- A program with the word `w` at index `n`, filled up to there with the word of `@0` where it is too short. -/
def placeWord : List Word → Nat → Word → List Word
  | [], 0, w => [w]
  | [], n + 1, w => 0 :: placeWord [] n w
  | _ :: rom, 0, w => w :: rom
  | u :: rom, n + 1, w => u :: placeWord rom n w

/-- The state with the word `w` loaded at ROM[PC] and a budget for at least one instruction (log entry 12). -/
def State.loadAtPc (s : State) (w : Word) : State :=
  { s with
    rom := placeWord s.rom s.pc.toNat w
    budget := if s.budget.exhausted then .limited 1 else s.budget }

end Sys2Proof.Machine
end

