-- ==== Sys2Proof/Machine/Step.lean ====
section
/-! DEFINITION. One step of the core (44_sequencer.md R216). -/

namespace Sys2Proof.Machine

/-- One step (44_sequencer.md R216). A halted core answers its own state: DESIGN CHOICE (log entry 5) for the rule's
`Halted(S)`, after which "no later step changes" the state (R211). -/
def step (s : State) : Host.Outcome State Fault Refusal :=
  if s.halted then .next s else spendBudget (exec (decode s.fetch) s)

/-- `s` with the instruction word `w` where the next step fetches (log entry 12): it stands for the host's loading of
the program (70_reset_and_hazards.md R251). -/
def State.withFetchWord (s : State) (nbits w : Nat) : State :=
  s.loadAtPc (BitVec.ofNat 16 (w % 2 ^ nbits))

end Sys2Proof.Machine
end

