-- ==== Sys2Proof/Machine/Assembler.lean ====
section
/-! DEFINITION. The assembly language (30_encoding.md R72, R80 to R95): from source lines to instruction words. -/

namespace Sys2Proof.Machine

/-- A line of text. -/
abbrev Line := List Char

/-- The assembler's errors (30_encoding.md R94). UnresolvedAddress "should never occur" and has no constructor: every
unbound symbol becomes a variable (log entry 17). -/
inductive AsmError where
  /-- A fragment not in its table, or a literal or variable out of range. -/
  | invalidMnemonic
  /-- One label bound to two addresses. -/
  | duplicateLabelDefinition
  /-- A token after `@` that is neither a literal nor a symbol. -/
  | malformedAddressLiteral
  /-- A line that begins with `(` and is no label declaration (DESIGN CHOICE, log entry 15). -/
  | malformedLabelDeclaration
  deriving DecidableEq, Repr

/-! ### Lines (30_encoding.md R80) -/

/-- What is left of a line when an inline `//` comment is removed. -/
def stripComment : Line → Line
  | [] => []
  | '/' :: '/' :: _ => []
  | c :: l => c :: stripComment l

/-- Whitespace: space, tab, carriage return, line feed (DESIGN CHOICE, log entry 14). -/
def isSpace (c : Char) : Bool := c == ' ' || c == '\t' || c == '\r' || c == '\n'

/-- A line without leading and trailing whitespace. -/
def trim (l : Line) : Line := ((l.dropWhile isSpace).reverse.dropWhile isSpace).reverse

/-- A classified source line. -/
inductive SourceLine where
  | blank
  | label (name : List Char)
  | badLabel
  | address (token : List Char)
  | command (text : List Char)
  deriving DecidableEq, Repr

/-- A letter, a digit, `_`, `.`, `$` or `:` (30_encoding.md R84); letters are ASCII letters (log entry 14). -/
def isSymbolChar (c : Char) : Bool := c.isAlpha || c.isDigit || c == '_' || c == '.' || c == '$' || c == ':'

/-- A symbol: of symbol characters, not beginning with a digit (30_encoding.md R84). That the empty text is no symbol is
the model's choice (DESIGN CHOICE, log entry 20). -/
def isSymbol : List Char → Bool
  | [] => false
  | c :: l => !c.isDigit && (c :: l).all isSymbolChar

/-- The label of a line that begins with `(`, from the text after it: a symbol and `)` (30_encoding.md R81). -/
def classifyLabel (rest : List Char) : SourceLine :=
  match rest.reverse with
  | ')' :: name => if isSymbol name.reverse then .label name.reverse else .badLabel
  | _ => .badLabel

/-- The one class of a line (30_encoding.md R80). -/
def classify (l : Line) : SourceLine :=
  match trim (stripComment l) with
  | [] => .blank
  | '(' :: rest => classifyLabel rest
  | '@' :: token => .address token
  | text => .command text

/-! ### Mnemonic tables -/

/-- The computation mnemonics (30_encoding.md R73). -/
def compTable : List (List Char × (Dest → Jump → Instr)) :=
  [("0".toList, .zero), ("1".toList, .one), ("-1".toList, .minusOne), ("D".toList, .passD), ("A".toList, .passA),
   ("!D".toList, .notD), ("!A".toList, .notA), ("-D".toList, .negD), ("-A".toList, .negA),
   ("D+1".toList, .incD), ("A+1".toList, .incA), ("D-1".toList, .decD), ("A-1".toList, .decA),
   ("D+A".toList, .dPlusA), ("D-A".toList, .dMinusA), ("A-D".toList, .aMinusD), ("D&A".toList, .dAndA),
   ("D|A".toList, .dOrA),
   ("M".toList, .passM), ("!M".toList, .notM), ("-M".toList, .negM), ("M+1".toList, .incM), ("M-1".toList, .decM),
   ("D+M".toList, .dPlusM), ("D-M".toList, .dMinusM), ("M-D".toList, .mMinusD), ("D&M".toList, .dAndM),
   ("D|M".toList, .dOrM)]

/-- The destination mnemonics (30_encoding.md R74); the empty destination is written with no `=` at all. -/
def destTable : List (List Char × Dest) :=
  [("M".toList, ⟨false, false, true⟩), ("D".toList, ⟨false, true, false⟩), ("MD".toList, ⟨false, true, true⟩),
   ("A".toList, ⟨true, false, false⟩), ("AM".toList, ⟨true, false, true⟩), ("AD".toList, ⟨true, true, false⟩),
   ("AMD".toList, ⟨true, true, true⟩)]

/-- The jump mnemonics (30_encoding.md R75); the empty jump is written with no `;` at all (log entry 16). -/
def jumpTable : List (List Char × Jump) :=
  [("JGT".toList, ⟨false, false, true⟩), ("JEQ".toList, ⟨false, true, false⟩), ("JGE".toList, ⟨false, true, true⟩),
   ("JLT".toList, ⟨true, false, false⟩), ("JNE".toList, ⟨true, false, true⟩), ("JLE".toList, ⟨true, true, false⟩),
   ("JMP".toList, ⟨true, true, true⟩)]

/-! ### Command instructions (30_encoding.md R85) -/

/-- The text before and after the first `c`, if there is one. -/
def splitFirst (c : Char) : List Char → Option (List Char × List Char)
  | [] => none
  | x :: l => if x = c then some ([], l) else (splitFirst c l).map (fun p => (x :: p.1, p.2))

/-- The destination fragment of a command, and the text after it. -/
def destFragment (text : List Char) : Option Dest × List Char :=
  match splitFirst '=' text with
  | some (d, rest) => (destTable.lookup d, rest)
  | none => (some ⟨false, false, false⟩, text)

/-- The computation fragment of the rest of a command, and its jump. -/
def jumpFragment (text : List Char) : List Char × Option Jump :=
  match splitFirst ';' text with
  | some (comp, j) => (comp, jumpTable.lookup j)
  | none => (text, some ⟨false, false, false⟩)

/-- The command `[dest=]comp[;jump]` (30_encoding.md R85): each fragment is looked up exactly in its table. -/
def assembleCommand (text : List Char) : Except AsmError Instr :=
  let (dest, rest) := destFragment text
  let (comp, jump) := jumpFragment rest
  match dest, compTable.lookup comp, jump with
  | some d, some mk, some j => .ok (mk d j)
  | _, _, _ => .error .invalidMnemonic

/-! ### Symbols (30_encoding.md R87, R90) -/

/-- The symbol table: bindings, and the next free variable address. -/
structure SymbolTable where
  bindings : List (List Char × Nat)
  nextFree : Nat
  deriving DecidableEq, Repr

/-- The table before pass 1: the predefined names (30_encoding.md R87), first variable address 16 (R89). -/
def SymbolTable.predefined : SymbolTable :=
  { bindings :=
      [("R0".toList, 0), ("R1".toList, 1), ("R2".toList, 2), ("R3".toList, 3), ("R4".toList, 4), ("R5".toList, 5),
       ("R6".toList, 6), ("R7".toList, 7), ("R8".toList, 8), ("R9".toList, 9), ("R10".toList, 10), ("R11".toList, 11),
       ("R12".toList, 12), ("R13".toList, 13), ("R14".toList, 14), ("R15".toList, 15),
       ("SP".toList, 0), ("LCL".toList, 1), ("ARG".toList, 2), ("THIS".toList, 3), ("THAT".toList, 4),
       ("SCREEN".toList, 16384), ("KBD".toList, 24576)]
    nextFree := Config.variableBase }

/-- `lookup(name)` (30_encoding.md R90). -/
def SymbolTable.lookup (t : SymbolTable) (name : List Char) : Option Nat := t.bindings.lookup name

/-- `define(name, address)`: fails if the name is bound to a different address (30_encoding.md R90). -/
def SymbolTable.define (t : SymbolTable) (name : List Char) (addr : Nat) : Except AsmError SymbolTable :=
  match t.lookup name with
  | some bound => if bound = addr then .ok t else .error .duplicateLabelDefinition
  | none => .ok { t with bindings := (name, addr) :: t.bindings }

/-- `allocate_variable(name)`: the existing binding, or the next free address, up to 32767 (30_encoding.md R89, R90). -/
def SymbolTable.allocate (t : SymbolTable) (name : List Char) : Except AsmError (Nat × SymbolTable) :=
  match t.lookup name with
  | some bound => .ok (bound, t)
  | none =>
    if t.nextFree ≤ Config.literalMax then
      .ok (t.nextFree, { bindings := (name, t.nextFree) :: t.bindings, nextFree := t.nextFree + 1 })
    else .error .invalidMnemonic

/-! ### The two passes -/

/-- The value of a sequence of decimal digits (30_encoding.md R83). -/
def decimalValue (digits : List Char) : Nat := digits.foldl (fun n c => 10 * n + (c.toNat - '0'.toNat)) 0

/-- The address instruction of an address, refused above 32767 (30_encoding.md R82, R83; log entry 16). -/
def addressInstr (n : Nat) : Except AsmError Instr :=
  if n ≤ Config.literalMax then .ok (.atValue (BitVec.ofNat 15 n)) else .error .invalidMnemonic

/-- The address instruction of a token, and the table after it (30_encoding.md R82, R83, R89). -/
def assembleAddress (token : List Char) (t : SymbolTable) : Except AsmError (Instr × SymbolTable) :=
  if !token.isEmpty && token.all Char.isDigit then (addressInstr (decimalValue token)).map (·, t)
  else if isSymbol token then
    match t.allocate token with
    | .ok (n, t') => (addressInstr n).map (·, t')
    | .error e => .error e
  else .error .malformedAddressLiteral

/-- Pass 1 (30_encoding.md R81, R88): binds each label to the count of instructions before it. -/
def resolveLabels : List SourceLine → Nat → SymbolTable → Except AsmError SymbolTable
  | [], _, t => .ok t
  | .blank :: src, n, t => resolveLabels src n t
  | .badLabel :: _, _, _ => .error .malformedLabelDeclaration
  | .label name :: src, n, t =>
    match t.define name n with
    | .ok t' => resolveLabels src n t'
    | .error e => .error e
  | .address _ :: src, n, t => resolveLabels src (n + 1) t
  | .command _ :: src, n, t => resolveLabels src (n + 1) t

/-- Pass 2 (30_encoding.md R82, R85, R89, R92): one instruction per address or command line, in source order. -/
def emitInstrs : List SourceLine → SymbolTable → Except AsmError (List Instr)
  | [], _ => .ok []
  | .blank :: src, t => emitInstrs src t
  | .badLabel :: src, t => emitInstrs src t
  | .label _ :: src, t => emitInstrs src t
  | .address token :: src, t =>
    match assembleAddress token t with
    | .ok (i, t') => (emitInstrs src t').map (i :: ·)
    | .error e => .error e
  | .command text :: src, t =>
    match assembleCommand text with
    | .ok i => (emitInstrs src t).map (i :: ·)
    | .error e => .error e

/-- The instructions of a source text: pass 1 over all of it, then pass 2 (30_encoding.md R88). -/
def assembleInstrs (lines : List Line) : Except AsmError (List Instr) :=
  match resolveLabels (lines.map classify) 0 SymbolTable.predefined with
  | .ok t => emitInstrs (lines.map classify) t
  | .error e => .error e

/-- The words of a source text (30_encoding.md R91, R92). -/
def assemble (lines : List Line) : Except AsmError (List Word) := (assembleInstrs lines).map (·.map encode)

/-! ### The textual binary form (30_encoding.md R72, R95) -/

/-- The 16 characters of a word, bit 15 first (30_encoding.md R72). -/
def wordText (w : Word) : Line := (List.range 16).map (fun i => if w.getMsbD i then '1' else '0')

/-- The word of 16 characters 0 and 1 (30_encoding.md R72, R95), whitespace around them removed. -/
def parseWord (l : Line) : Option Word :=
  let t := trim l
  if t.length == 16 && t.all (fun c => c == '0' || c == '1') then
    some (BitVec.ofNat 16 (t.foldl (fun n c => 2 * n + if c == '1' then 1 else 0) 0))
  else none

end Sys2Proof.Machine
end

