-- ==== Sys2Proof/Machine/Launch.lean ====
section
/-! DEFINITION. The launch of a run by the host (70_reset_and_hazards.md R251) and the errors that refuse it
(60_exceptions.md R237). -/

namespace Sys2Proof.Machine

/-- The host's `cycle_budget` argument (10_state.md R28). The sentinel's integer is not given (93 U8), so it has a
constructor of its own (log entry 18). -/
inductive BudgetArg where
  | sentinel
  | int (n : Int)
  deriving DecidableEq, Repr

/-- The arguments of a launch (70_reset_and_hazards.md R251), with the OPEN parameters INIT_A and INIT_D. -/
structure LaunchArgs where
  lines : List Line
  isSourceForm : Bool
  cycleBudget : BudgetArg
  initA : Word
  initD : Word
  deriving DecidableEq, Repr

/-- How an assembler error refuses the launch: MalformedAddressLiteral is treated as InvalidMnemonic (30_encoding.md
R94). -/
def AsmError.refusal : AsmError → Refusal
  | .invalidMnemonic => .invalidMnemonic
  | .malformedAddressLiteral => .invalidMnemonic
  | .duplicateLabelDefinition => .duplicateLabelDefinition
  | .malformedLabelDeclaration => .malformedLabelDeclaration

/-- The words of a binary program, one a line (30_encoding.md R95). -/
def parseProgram : List Line → Except Refusal (List Word)
  | [] => .ok []
  | l :: lines =>
    match parseWord l with
    | some w => (parseProgram lines).map (w :: ·)
    | none => .error .malformedBinaryLine

/-- The program of the host's lines (30_encoding.md R95; 70_reset_and_hazards.md R251 step 1). -/
def readProgram (isSourceForm : Bool) (lines : List Line) : Except Refusal (List Word) :=
  if isSourceForm then
    match assemble lines with
    | .ok ws => .ok ws
    | .error e => .error e.refusal
  else parseProgram lines

/-- BUDGET from the host's argument (10_state.md R28): a negative number that is not the sentinel is refused. -/
def BudgetArg.budget : BudgetArg → Except Refusal Budget
  | .sentinel => .ok .unlimited
  | .int (.ofNat n) => .ok (.limited n)
  | .int (.negSucc _) => .error .invalidBudget

/-- The launch (70_reset_and_hazards.md R251 steps 1 to 3): the start state of the run, or the refusal. Lines are
checked first, then the length, then the budget (log entry 18). -/
def launch (args : LaunchArgs) : Host.Outcome State Fault Refusal :=
  match readProgram args.isSourceForm args.lines with
  | .error r => .refused r
  | .ok rom =>
    if Config.romMax < rom.length then .refused .programTooLong
    else
      match args.cycleBudget.budget with
      | .error r => .refused r
      | .ok b => .next (State.start args.initA args.initD b rom)

end Sys2Proof.Machine
end

