-- ==== Sys2Proof/Machine/Run.lean ====
section
/-! DEFINITION. The end of a run and what the host observes of it (44_sequencer.md R214, R217). -/

namespace Sys2Proof.Machine

/-- The output: each written address with its final word, in ascending address order (44_sequencer.md R214). -/
def State.output (s : State) : List (Nat × Word) := s.written.map (fun a => (a, s.mem.read a))

/-- The observation at the end of a run (44_sequencer.md R217): the output with A, D and PC. -/
structure Observation where
  output : List (Nat × Word)
  regA : Word
  regD : Word
  pc : Word
  deriving DecidableEq, Repr

/-- The observation of a state (44_sequencer.md R217). -/
def State.observe (s : State) : Observation :=
  { output := s.output, regA := s.regA, regD := s.regD, pc := s.pc }

/-- The run from `s` ends in the halted state `e` (44_sequencer.md R217). A halted state answers itself (log entry
5), so the first halted state of a run is the only one. -/
def EndsIn (s e : State) : Prop := ∃ k, Host.Core.run Sys2Proof.core k s = .next e ∧ e.halted = true

/-- The whole entry point (70_reset_and_hazards.md R251): the launch is accepted and its run ends with this
observation. -/
def Executes (args : LaunchArgs) (o : Observation) : Prop :=
  ∃ s e, launch args = .next s ∧ EndsIn s e ∧ o = e.observe

end Sys2Proof.Machine
end

