-- ==== Sys2Proof/Safety.lean ====
section
/-! DEFINITION. What holds of every state of a run: the invariant the claims speak of, and when the core runs. -/

namespace Sys2Proof.Machine

/-- Every data-memory word that is not 0 stands at an address in WRITTEN: memory is 0 at the start of a run
(20_memory.md R41) and only a store, which records its address, changes it (R42). -/
abbrev State.accounted (s : State) : Prop := ∀ c ∈ s.mem, c.1 ∈ s.written

/-- The invariant of a run: memory and WRITTEN in canonical form with 16-bit addresses (10_state.md R20), every nonzero
word accounted for in WRITTEN, and at most 32768 instruction words (10_state.md R29). -/
abbrev State.Inv (s : State) : Prop :=
  s.mem.wf ∧ WrittenSet.wf s.written ∧ s.accounted ∧ s.rom.length ≤ Config.romMax

/-- The core is not halted, so a step executes an instruction (44_sequencer.md R210). -/
abbrev State.running (s : State) : Prop := s.halted = false

end Sys2Proof.Machine
end

