-- ==== Sys2Proof/Certificates/Slice0/Obligations.lean ====
section
/-! DEFINITION. The statements for the provers. The helpers under Sys2Proof.Claims restate the spec's pseudocode on the
bits of an instruction word, apart from the model's own decoder, ALU and dispatch. -/

namespace Sys2Proof.Claims

open Sys2Proof.Machine

/-! ### The spec's pseudocode on bits -/

/-- `alu(c, x, y)` of 41_alu.md R111 on the control field `c = w[11:6]`: `zx nx zy ny f no` are its bits 5 to 0
(30_encoding.md R65). -/
def aluBits (c : BitVec 6) (x y : Word) : Word :=
  let x1 := if c.getLsbD 5 then 0#16 else x
  let x2 := if c.getLsbD 4 then ~~~x1 else x1
  let y1 := if c.getLsbD 3 then 0#16 else y
  let y2 := if c.getLsbD 2 then ~~~y1 else y1
  let o := if c.getLsbD 1 then x2 + y2 else x2 &&& y2
  if c.getLsbD 0 then ~~~o else o

/-- `cond(j, out)` of 43_jump.md R190 on the jump field `j = w[2:0]`. -/
def condBits (j : BitVec 3) (out : Word) : Bool :=
  (j.getLsbD 2 && out.getLsbD 15) || (j.getLsbD 1 && out == 0#16) ||
    (j.getLsbD 0 && !out.getLsbD 15 && !(out == 0#16))

/-- `out` of 42_command.md R160 for the command word `w` in state `s`. -/
def resultOf (w : Word) (s : State) : Word :=
  aluBits (w.extractLsb' 6 6) s.regD (if w.getLsbD 12 then s.mem.read s.regA.toNat else s.regA)

/-- The state after the command word `w` by the pseudocode of 42_command.md R160. -/
def commandAfter (w : Word) (s : State) : State :=
  let aOld := s.regA
  let out := resultOf w s
  { s with
    mem := if w.getLsbD 3 then s.mem.write aOld.toNat out else s.mem
    written := if w.getLsbD 3 then WrittenSet.insert s.written aOld.toNat else s.written
    regD := if w.getLsbD 4 then out else s.regD
    regA := if w.getLsbD 5 then out else s.regA
    pc := if condBits (w.extractLsb' 0 3) out then aOld else s.pc + 1 }

/-- The state after the word `w` by the body of 44_sequencer.md R216, before the budget is counted. -/
def wordAfter (w : Word) (s : State) : State :=
  if w.getLsbD 15 then commandAfter w s else { s with regA := w &&& 0x7FFF#16, pc := s.pc + 1 }

/-- `step(ROM, S)` of 44_sequencer.md R216, with `Halted(S)` read as S (log entry 5). -/
def stepAfter (s : State) : State :=
  if s.rom.length ≤ s.pc.toNat ∨ s.budget = .limited 0 then s
  else
    let t := wordAfter (s.rom.getD s.pc.toNat 0) s
    { t with
      budget := match t.budget with
        | .limited n => .limited (n - 1)
        | .unlimited => .unlimited }

/-! ### What an instruction's receivers hold -/

/-- After a command with result `out` and destination bits `d`: the selected receivers hold `out`, the memory word
written being the one at the old A, and every other register, memory word and WRITTEN address, the program and the
budget are as before (42_command.md R160, R162 to R169). The program counter is left open. -/
def Receives (d : Dest) (out : Word) (s t : State) : Prop :=
  t.regA = (if d.dA then out else s.regA) ∧
  t.regD = (if d.dD then out else s.regD) ∧
  (d.dM = true → t.mem.read s.regA.toNat = out) ∧
  (∀ a : Nat, d.dM = false ∨ a ≠ s.regA.toNat → t.mem.read a = s.mem.read a) ∧
  (∀ a : Nat, a ∈ t.written ↔ a ∈ s.written ∨ d.dM = true ∧ a = s.regA.toNat) ∧
  t.rom = s.rom ∧ t.budget = s.budget

/-- One row of the named computations (41_alu.md R120 to R147): the instruction's word is `111 comp dest jump`, that
word decodes to it, it completes with `out` in its receivers, and the signals zr and ng of `out` are as
the row says. -/
def RowRule (mk : Dest → Jump → Instr) (comp : BitVec 7) (out : State → Word) (zrIff ngIff : State → Prop) : Prop :=
  ∀ (db jb : BitVec 3) (s : State), s.mem.wf →
    encode (mk (Dest.ofBits db) (Jump.ofBits jb)) = 0b111#3 ++ comp ++ db ++ jb ∧
    decode (0b111#3 ++ comp ++ db ++ jb) = mk (Dest.ofBits db) (Jump.ofBits jb) ∧
    (∃ t, exec (mk (Dest.ofBits db) (Jump.ofBits jb)) s = .next t ∧ Receives (Dest.ofBits db) (out s) s t) ∧
    (zr (out s) = true ↔ zrIff s) ∧ (ng (out s) = true ↔ ngIff s)

/-- `M` of 00_scope.md R11: the memory word at A. -/
def opM (s : State) : Word := s.mem.read s.regA.toNat

/-- The 64 rows of 41_alu.md R151, control pattern 000000 first, as functions of D and Y. -/
def closedForms : List (Word → Word → Word) :=
  [fun d y => d &&& y, fun d y => ~~~d ||| ~~~y, fun d y => d + y, fun d y => -d - y - 1,
   fun d y => d &&& ~~~y, fun d y => ~~~d ||| y, fun d y => d - y - 1, fun d y => -d + y,
   fun _ _ => 0, fun _ _ => -1, fun d _ => d, fun d _ => -d - 1,
   fun d _ => d, fun d _ => ~~~d, fun d _ => d - 1, fun d _ => -d,
   fun d y => ~~~d &&& y, fun d y => d ||| ~~~y, fun d y => -d + y - 1, fun d y => d - y,
   fun d y => ~~~d &&& ~~~y, fun d y => d ||| y, fun d y => -d - y - 2, fun d y => d + y + 1,
   fun _ _ => 0, fun _ _ => -1, fun d _ => -d - 1, fun d _ => d,
   fun d _ => ~~~d, fun d _ => d, fun d _ => -d - 2, fun d _ => d + 1,
   fun _ _ => 0, fun _ _ => -1, fun _ y => y, fun _ y => -y - 1,
   fun _ _ => 0, fun _ _ => -1, fun _ y => -y - 1, fun _ y => y,
   fun _ _ => 0, fun _ _ => -1, fun _ _ => 0, fun _ _ => -1,
   fun _ _ => 0, fun _ _ => -1, fun _ _ => -1, fun _ _ => 0,
   fun _ y => y, fun _ y => ~~~y, fun _ y => y - 1, fun _ y => -y,
   fun _ y => ~~~y, fun _ y => y, fun _ y => -y - 2, fun _ y => y + 1,
   fun _ _ => 0, fun _ _ => -1, fun _ _ => -1, fun _ _ => 0,
   fun _ _ => -1, fun _ _ => 0, fun _ _ => -2, fun _ _ => 1]

/-- Source lines that give an instruction (30_encoding.md R80, R81). -/
def isInstrLine : SourceLine → Bool
  | .address _ => true
  | .command _ => true
  | _ => false

/-- The 28 rows of 30_encoding.md R73: spelling and code `a zx nx zy ny f no`. -/
def compRows : List (List Char × BitVec 7) :=
  [("0".toList, 0b0101010#7), ("1".toList, 0b0111111#7), ("-1".toList, 0b0111010#7),
   ("D".toList, 0b0001100#7), ("A".toList, 0b0110000#7), ("!D".toList, 0b0001101#7), ("!A".toList, 0b0110001#7),
   ("-D".toList, 0b0001111#7), ("-A".toList, 0b0110011#7), ("D+1".toList, 0b0011111#7), ("A+1".toList, 0b0110111#7),
   ("D-1".toList, 0b0001110#7), ("A-1".toList, 0b0110010#7), ("D+A".toList, 0b0000010#7), ("D-A".toList, 0b0010011#7),
   ("A-D".toList, 0b0000111#7), ("D&A".toList, 0b0000000#7), ("D|A".toList, 0b0010101#7)] ++
  [("M".toList, 0b1110000#7), ("!M".toList, 0b1110001#7), ("-M".toList, 0b1110011#7), ("M+1".toList, 0b1110111#7),
   ("M-1".toList, 0b1110010#7), ("D+M".toList, 0b1000010#7), ("D-M".toList, 0b1010011#7), ("M-D".toList, 0b1000111#7),
   ("D&M".toList, 0b1000000#7), ("D|M".toList, 0b1010101#7)]

/-- The eight rows of 30_encoding.md R74: the destination's text with its `=` (R85), nothing for the row (none), and
the code `dA dD dM`. -/
def destRows : List (List Char × BitVec 3) :=
  [("".toList, 0b000#3), ("M=".toList, 0b001#3), ("D=".toList, 0b010#3), ("MD=".toList, 0b011#3),
   ("A=".toList, 0b100#3), ("AM=".toList, 0b101#3), ("AD=".toList, 0b110#3), ("AMD=".toList, 0b111#3)]

/-- The eight rows of 30_encoding.md R75: the jump's text with its `;` (R85), nothing for the row (none), and the code
`jLT jEQ jGT`. -/
def jumpRows : List (List Char × BitVec 3) :=
  [("".toList, 0b000#3), (";JGT".toList, 0b001#3), (";JEQ".toList, 0b010#3), (";JGE".toList, 0b011#3),
   (";JLT".toList, 0b100#3), (";JNE".toList, 0b101#3), (";JLE".toList, 0b110#3), (";JMP".toList, 0b111#3)]

/-- A command as its three rows of the spec's tables. -/
structure CommandRows where
  dest : List Char × BitVec 3
  comp : List Char × BitVec 7
  jump : List Char × BitVec 3
  deriving DecidableEq, Repr

/-- The three rows stand in the tables of 30_encoding.md R74, R73 and R75. -/
def CommandRows.inTables (r : CommandRows) : Prop := r.dest ∈ destRows ∧ r.comp ∈ compRows ∧ r.jump ∈ jumpRows

/-- `[dest=]comp[;jump]` (30_encoding.md R85). -/
def CommandRows.text (r : CommandRows) : Line := r.dest.1 ++ r.comp.1 ++ r.jump.1

/-- `111 comp dest jump` (30_encoding.md R91). -/
def CommandRows.word (r : CommandRows) : Word := 0b111#3 ++ r.comp.2 ++ r.dest.2 ++ r.jump.2

end Sys2Proof.Claims

open Sys2Proof Sys2Proof.Machine Sys2Proof.Claims

/-! ### Encoding -/

/-- Words written out in the spec decode to their instructions (95_test_vectors.md S1, S2, sections 4 to 7): @2, D=A,
AM=M+1;JMP, D;JGT, M=M+1, the code 0000001 with destination D, and D=A with bits 14:13 = 00. -/
def Obligations.SpecWordsDecode : Prop :=
  decode 0b0000000000000010#16 = .atValue 2 ∧
  decode 0b1110110000010000#16 = .passA ⟨false, true, false⟩ ⟨false, false, false⟩ ∧
  decode 0b1111110111101111#16 = .incM ⟨true, false, true⟩ ⟨true, true, true⟩ ∧
  decode 0b1110001100000001#16 = .passD ⟨false, false, false⟩ ⟨false, false, true⟩ ∧
  decode 0b1111110111001000#16 = .incM ⟨false, false, true⟩ ⟨false, false, false⟩ ∧
  decode 0b1110000001010000#16 =
    .unnamed .regA ⟨false, false, false, false, false, true⟩ ⟨false, true, false⟩ ⟨false, false, false⟩ ∧
  decode 0b1000110000010000#16 = .passA ⟨false, true, false⟩ ⟨false, false, false⟩

/-- Decoding the word of a well-formed instruction gives the instruction back (30_encoding.md R62, R63, R91). -/
def Obligations.DecodeOfEncodeIsTheInstruction : Prop :=
  ∀ i : Instr, i.wellFormed = true → decode (encode i) = i

/-- Every word decodes to a well-formed instruction: no named code is taken for an unnamed one, and no word is without
a meaning (30_encoding.md R69, 41_alu.md R150). -/
def Obligations.EveryWordDecodesWellFormed : Prop :=
  ∀ w : Word, (decode w).wellFormed = true

/-- Encoding a decoded word gives the word with bits 14:13 of a command word set to 11, and an address word itself. -/
def Obligations.EncodeOfDecodeSetsThePrefix : Prop :=
  ∀ w : Word, encode (decode w) = if w.getLsbD 15 then w ||| 0x6000#16 else w

/-- A command word executes as the word with the same bits 12:0 and bits 14:13 = 11 (30_encoding.md R68, the spec's
decision D11; log entry 7). -/
def Obligations.CommandBits14And13AreIgnored : Prop :=
  ∀ (x : BitVec 2) (r : BitVec 13), decode (0b1#1 ++ x ++ r) = decode (0b111#3 ++ r) ∧
    ∀ s, exec (decode (0b1#1 ++ x ++ r)) s = exec (decode (0b111#3 ++ r)) s

/-! ### The address instruction -/

/-- `@value` (40_address_instruction.md R100): its word is 0 and the literal, A receives the literal zero-extended, PC
advances, nothing else changes, and A[15] is 0. -/
def Obligations.AtValueLoadsTheLiteralIntoA : Prop :=
  ∀ (v : BitVec 15) (s : State),
    encode (.atValue v) = 0b0#1 ++ v ∧ decode (0b0#1 ++ v) = .atValue v ∧
    exec (.atValue v) s = .next { s with regA := v.zeroExtend 16, pc := s.pc + 1 } ∧
    (v.zeroExtend 16).getLsbD 15 = false

/-! ### The 28 named computations -/

/-- The constants `0`, `1`, `-1` (41_alu.md R120 to R122). -/
def Obligations.ConstantComputations : Prop :=
  RowRule .zero 0b0101010#7 (fun _ => 0x0000#16) (fun _ => True) (fun _ => False) ∧
  RowRule .one 0b0111111#7 (fun _ => 0x0001#16) (fun _ => False) (fun _ => False) ∧
  RowRule .minusOne 0b0111010#7 (fun _ => 0xFFFF#16) (fun _ => False) (fun _ => True)

/-- `D`, `A`, `!D`, `!A` (41_alu.md R123 to R126). -/
def Obligations.PassAndNotComputations : Prop :=
  RowRule .passD 0b0001100#7 (·.regD) (fun s => s.regD = 0) (fun s => s.regD.getLsbD 15 = true) ∧
  RowRule .passA 0b0110000#7 (·.regA) (fun s => s.regA = 0) (fun s => s.regA.getLsbD 15 = true) ∧
  RowRule .notD 0b0001101#7 (fun s => ~~~s.regD) (fun s => s.regD = 0xFFFF#16) (fun s => s.regD.getLsbD 15 = false) ∧
  RowRule .notA 0b0110001#7 (fun s => ~~~s.regA) (fun s => s.regA = 0xFFFF#16) (fun s => s.regA.getLsbD 15 = false)

/-- `-D`, `-A`, `D+1`, `A+1`, `D-1`, `A-1` (41_alu.md R127 to R132). -/
def Obligations.NegateIncrementDecrementComputations : Prop :=
  RowRule .negD 0b0001111#7 (fun s => 0 - s.regD) (fun s => s.regD = 0) (fun s => (0 - s.regD).getLsbD 15 = true) ∧
  RowRule .negA 0b0110011#7 (fun s => 0 - s.regA) (fun s => s.regA = 0) (fun s => (0 - s.regA).getLsbD 15 = true) ∧
  RowRule .incD 0b0011111#7 (fun s => s.regD + 1) (fun s => s.regD = 0xFFFF#16)
    (fun s => (s.regD + 1).getLsbD 15 = true) ∧
  RowRule .incA 0b0110111#7 (fun s => s.regA + 1) (fun s => s.regA = 0xFFFF#16)
    (fun s => (s.regA + 1).getLsbD 15 = true) ∧
  RowRule .decD 0b0001110#7 (fun s => s.regD - 1) (fun s => s.regD = 1) (fun s => (s.regD - 1).getLsbD 15 = true) ∧
  RowRule .decA 0b0110010#7 (fun s => s.regA - 1) (fun s => s.regA = 1) (fun s => (s.regA - 1).getLsbD 15 = true)

/-- `D+A`, `D-A`, `A-D`, `D&A`, `D|A` (41_alu.md R133 to R137). -/
def Obligations.TwoRegisterComputations : Prop :=
  RowRule .dPlusA 0b0000010#7 (fun s => s.regD + s.regA) (fun s => s.regD + s.regA = 0)
    (fun s => (s.regD + s.regA).getLsbD 15 = true) ∧
  RowRule .dMinusA 0b0010011#7 (fun s => s.regD - s.regA) (fun s => s.regD = s.regA)
    (fun s => (s.regD - s.regA).getLsbD 15 = true) ∧
  RowRule .aMinusD 0b0000111#7 (fun s => s.regA - s.regD) (fun s => s.regA = s.regD)
    (fun s => (s.regA - s.regD).getLsbD 15 = true) ∧
  RowRule .dAndA 0b0000000#7 (fun s => s.regD &&& s.regA) (fun s => s.regD &&& s.regA = 0)
    (fun s => (s.regD &&& s.regA).getLsbD 15 = true) ∧
  RowRule .dOrA 0b0010101#7 (fun s => s.regD ||| s.regA) (fun s => s.regD = 0 ∧ s.regA = 0)
    (fun s => s.regD.getLsbD 15 = true ∨ s.regA.getLsbD 15 = true)

/-- `M`, `!M`, `-M`, `M+1`, `M-1` (41_alu.md R138 to R142). -/
def Obligations.MemoryOperandComputations : Prop :=
  RowRule .passM 0b1110000#7 opM (fun s => opM s = 0) (fun s => (opM s).getLsbD 15 = true) ∧
  RowRule .notM 0b1110001#7 (fun s => ~~~opM s) (fun s => opM s = 0xFFFF#16) (fun s => (opM s).getLsbD 15 = false) ∧
  RowRule .negM 0b1110011#7 (fun s => 0 - opM s) (fun s => opM s = 0) (fun s => (0 - opM s).getLsbD 15 = true) ∧
  RowRule .incM 0b1110111#7 (fun s => opM s + 1) (fun s => opM s = 0xFFFF#16)
    (fun s => (opM s + 1).getLsbD 15 = true) ∧
  RowRule .decM 0b1110010#7 (fun s => opM s - 1) (fun s => opM s = 1) (fun s => (opM s - 1).getLsbD 15 = true)

/-- `D+M`, `D-M`, `M-D`, `D&M`, `D|M` (41_alu.md R143 to R147). -/
def Obligations.RegisterAndMemoryComputations : Prop :=
  RowRule .dPlusM 0b1000010#7 (fun s => s.regD + opM s) (fun s => s.regD + opM s = 0)
    (fun s => (s.regD + opM s).getLsbD 15 = true) ∧
  RowRule .dMinusM 0b1010011#7 (fun s => s.regD - opM s) (fun s => s.regD = opM s)
    (fun s => (s.regD - opM s).getLsbD 15 = true) ∧
  RowRule .mMinusD 0b1000111#7 (fun s => opM s - s.regD) (fun s => opM s = s.regD)
    (fun s => (opM s - s.regD).getLsbD 15 = true) ∧
  RowRule .dAndM 0b1000000#7 (fun s => s.regD &&& opM s) (fun s => s.regD &&& opM s = 0)
    (fun s => (s.regD &&& opM s).getLsbD 15 = true) ∧
  RowRule .dOrM 0b1010101#7 (fun s => s.regD ||| opM s) (fun s => s.regD ||| opM s = 0)
    (fun s => (s.regD ||| opM s).getLsbD 15 = true)

/-! ### Unnamed codes and the ALU -/

/-- `C-unnamed` (41_alu.md R150, the spec's decision D12; log entry 8): every code completes by the ALU rule on its
bits, with y = A if a = 0 and y = M if a = 1. -/
def Obligations.UnnamedCodesExecuteByTheAluRule : Prop :=
  ∀ (a : Bool) (c : BitVec 6) (d : Dest) (j : Jump) (s : State), s.mem.wf →
    ∃ t, exec (.unnamed (YSource.ofBit a) (AluControl.ofBits c) d j) s = .next t ∧
      Receives d (aluBits c s.regD (if a then opM s else s.regA)) s t ∧
      t.pc = if condBits j.toBits (aluBits c s.regD (if a then opM s else s.regA)) then s.regA else s.pc + 1

/-- The ALU's stages in their order on the six control bits, and its status signals (41_alu.md R111, R112). -/
def Obligations.AluEvaluatesItsStagesInOrder : Prop :=
  ∀ (c : BitVec 6) (x y : Word), alu (AluControl.ofBits c) x y = aluBits c x y ∧
    (zr (alu (AluControl.ofBits c) x y) = true ↔ alu (AluControl.ofBits c) x y = 0x0000#16) ∧
    ng (alu (AluControl.ofBits c) x y) = (alu (AluControl.ofBits c) x y).getLsbD 15

/-- The closed form of all 64 control patterns (41_alu.md R151). -/
def Obligations.AluClosedForms : Prop :=
  ∀ (c : BitVec 6) (x y : Word),
    alu (AluControl.ofBits c) x y = closedForms.getD c.toNat (fun _ _ => 0) x y

/-! ### Operands, destinations, jumps -/

/-- Operand select (42_command.md R161) as what an instruction can read of memory: with a = 0 nothing, with a = 1 only
the word at A. Changing the rest of memory changes neither A, D, PC and WRITTEN after the instruction nor, between
canonical memories, the word that a command with dM stores at the old A. -/
def Obligations.CommandReadsAtMostTheWordAtA : Prop :=
  ∀ (w : Word) (s : State) (m : Memory),
    (w.getLsbD 15 = true ∧ w.getLsbD 12 = true → m.read s.regA.toNat = s.mem.read s.regA.toNat) →
    ∃ t u, exec (decode w) s = .next t ∧ exec (decode w) { s with mem := m } = .next u ∧
      t.regA = u.regA ∧ t.regD = u.regD ∧ t.pc = u.pc ∧ t.written = u.written ∧
      (s.mem.wf → m.wf → w.getLsbD 15 = true → w.getLsbD 3 = true →
        t.mem.read s.regA.toNat = u.mem.read s.regA.toNat)

/-- The eight destination codes (42_command.md R162 to R169) of every command word: which receivers get the result, the
memory write going to the old A, and what stays as it was. That words with bits 14:13 other than 11 and unnamed codes
are command words like the others is the spec's decisions D11 and D12 (log entries 7 and 8). -/
def Obligations.DestinationCodesSelectTheReceivers : Prop :=
  ∀ (w : Word) (s : State), w.getLsbD 15 = true → s.mem.wf →
    ∃ t, exec (decode w) s = .next t ∧
      (w.extractLsb' 3 3 = 0b000#3 → Receives ⟨false, false, false⟩ (resultOf w s) s t) ∧
      (w.extractLsb' 3 3 = 0b001#3 → Receives ⟨false, false, true⟩ (resultOf w s) s t) ∧
      (w.extractLsb' 3 3 = 0b010#3 → Receives ⟨false, true, false⟩ (resultOf w s) s t) ∧
      (w.extractLsb' 3 3 = 0b011#3 → Receives ⟨false, true, true⟩ (resultOf w s) s t) ∧
      (w.extractLsb' 3 3 = 0b100#3 → Receives ⟨true, false, false⟩ (resultOf w s) s t) ∧
      (w.extractLsb' 3 3 = 0b101#3 → Receives ⟨true, false, true⟩ (resultOf w s) s t) ∧
      (w.extractLsb' 3 3 = 0b110#3 → Receives ⟨true, true, false⟩ (resultOf w s) s t) ∧
      (w.extractLsb' 3 3 = 0b111#3 → Receives ⟨true, true, true⟩ (resultOf w s) s t)

/-- The jump condition and its eight codes (43_jump.md R190 to R198), in the signals zr and ng and in the signed reading
of the result, and the jump they make in `D;jump` and `dest=D;jump` for a destination without A. -/
def Obligations.JumpCodesTestSignAndZero : Prop :=
  (∀ (j : Jump) (out : Word),
    taken j out = ((j.jLT && ng out) || (j.jEQ && zr out) || (j.jGT && !ng out && !zr out))) ∧
  ∀ out : Word,
    taken (Jump.ofBits 0b000#3) out = false ∧
    taken (Jump.ofBits 0b001#3) out = (!ng out && !zr out) ∧
    taken (Jump.ofBits 0b010#3) out = zr out ∧
    taken (Jump.ofBits 0b011#3) out = !ng out ∧
    taken (Jump.ofBits 0b100#3) out = ng out ∧
    taken (Jump.ofBits 0b101#3) out = !zr out ∧
    taken (Jump.ofBits 0b110#3) out = (ng out || zr out) ∧
    taken (Jump.ofBits 0b111#3) out = true ∧
    (taken (Jump.ofBits 0b001#3) out = true ↔ 0 < out.toInt) ∧
    (taken (Jump.ofBits 0b010#3) out = true ↔ out.toInt = 0) ∧
    (taken (Jump.ofBits 0b011#3) out = true ↔ 0 ≤ out.toInt) ∧
    (taken (Jump.ofBits 0b100#3) out = true ↔ out.toInt < 0) ∧
    (taken (Jump.ofBits 0b101#3) out = true ↔ out.toInt ≠ 0) ∧
    (taken (Jump.ofBits 0b110#3) out = true ↔ out.toInt ≤ 0) ∧
    ∀ (d : Dest) (j : Jump) (s : State), d.dA = false → s.regD = out →
      ∃ t, exec (.passD d j) s = .next t ∧ t.pc = if taken j out then s.regA else s.pc + 1

/-- The next PC (43_jump.md R199): the old A if a command's condition holds, PC + 1 otherwise and after every address
instruction. That the target is the OLD A when the command also writes A is the spec's decision D6 (R200; log entry 6). -/
def Obligations.NextPcIsOldAOrPcPlusOne : Prop :=
  ∀ (w : Word) (s : State), ∃ t, exec (decode w) s = .next t ∧
    t.pc = if w.getLsbD 15 && condBits (w.extractLsb' 0 3) (resultOf w s) then s.regA else s.pc + 1

/-- A command that writes both A and M stores at the old A, not at the result, and jumps to the old A (42_command.md
R170, 43_jump.md R200; the jump target is the spec's decision D6, log entry 6). -/
def Obligations.EveryUseOfAIsItsOldValue : Prop :=
  ∀ (w : Word) (s : State), w.getLsbD 15 = true → w.getLsbD 5 = true → w.getLsbD 3 = true → s.mem.wf →
    ∃ t, exec (decode w) s = .next t ∧ t.regA = resultOf w s ∧ t.mem.read s.regA.toNat = resultOf w s ∧
      (resultOf w s ≠ s.regA → t.mem.read (resultOf w s).toNat = s.mem.read (resultOf w s).toNat) ∧
      (condBits (w.extractLsb' 0 3) (resultOf w s) = true → t.pc = s.regA)

/-- The register file R0..R15 (10_state.md R27; the binding of Rk to address k is general knowledge of the spec): with
A = k, `D=M` reads Rk and `M=D` writes Rk, leaves every other of the sixteen, and records k in WRITTEN. -/
def Obligations.RegisterFileIsReachedThroughM : Prop :=
  ∀ (s : State) (k : Fin 16), s.mem.wf → s.regA = BitVec.ofNat 16 k →
    (∃ t, exec (.passM ⟨false, true, false⟩ ⟨false, false, false⟩) s = .next t ∧ t.regD = s.fileRegister k ∧
      ∀ j, t.fileRegister j = s.fileRegister j) ∧
    (∃ t, exec (.passD ⟨false, false, true⟩ ⟨false, false, false⟩) s = .next t ∧ t.fileRegister k = s.regD ∧
      (∀ j, j ≠ k → t.fileRegister j = s.fileRegister j) ∧ (k : Nat) ∈ t.written)

/-! ### Every instruction: completion, frame, refinement -/

/-- Every instruction completes in every state (30_encoding.md R69, 60_exceptions.md R230). -/
def Obligations.EveryInstructionCompletes : Prop :=
  ∀ (i : Instr) (s : State), ∃ t, exec i s = .next t

/-- The frame of every instruction (10_state.md R21 to R23, 20_memory.md R53): A changes only by `@value` and a command
with dA, D only with dD, a memory word only with dM and only at the old A, WRITTEN only by that address, the program and
the budget never. -/
def Obligations.InstructionsChangeOnlyTheirDestinations : Prop :=
  ∀ (i : Instr) (s : State), ∃ t, exec i s = .next t ∧
    (i.isCommand = true → i.dest.dA = false → t.regA = s.regA) ∧
    (i.dest.dD = false → t.regD = s.regD) ∧
    (∀ a : Nat, i.dest.dM = false ∨ a ≠ s.regA.toNat → t.mem.read a = s.mem.read a) ∧
    (∀ a : Nat, a ∈ t.written ↔ a ∈ s.written ∨ i.dest.dM = true ∧ a = s.regA.toNat) ∧
    t.rom = s.rom ∧ t.budget = s.budget

/-- A, D, memory and PC after an instruction do not depend on WRITTEN, BUDGET or the program, and A, D and memory not
on PC (10_state.md R23, R28, R30: no instruction reads them as data). -/
def Obligations.WrittenBudgetAndPcAreNotObserved : Prop :=
  ∀ (i : Instr) (s u : State), s.regA = u.regA → s.regD = u.regD → s.mem = u.mem →
    ∃ s' u', exec i s = .next s' ∧ exec i u = .next u' ∧
      s'.regA = u'.regA ∧ s'.regD = u'.regD ∧ s'.mem = u'.mem ∧ (s.pc = u.pc → s'.pc = u'.pc)

/-- Every command word, named or not, does what the pseudocode of 42_command.md R160 says of its bits (the jump target
with dA is the spec's decision D6, log entry 6; bits 14:13 its decision D11, log entry 7; the unnamed codes its decision
D12, log entry 8). -/
def Obligations.CommandWordsFollowTheirBits : Prop :=
  ∀ (w : Word) (s : State), w.getLsbD 15 = true → exec (decode w) s = .next (commandAfter w s)

/-- The step of the model is the spec's complete step function (44_sequencer.md R216) in every state; that a halted
core answers its own state is the model's choice (log entry 5), the old A as jump target the spec's decision D6 (log
entry 6), bits 14:13 its decision D11 (log entry 7), the unnamed codes its decision D12 (log entry 8). -/
def Obligations.StepIsTheSpecStepFunction : Prop :=
  ∀ s : State, step s = .next (stepAfter s)

/-! ### The sequencer -/

/-- A step of a running core is exec of the instruction at PC, with one unit of the budget spent (44_sequencer.md R212,
R213). -/
def Obligations.StepRunsTheDecodedInstruction : Prop :=
  ∀ (s : State) (w : Word), s.running → s.rom[s.pc.toNat]? = some w →
    ∃ t, exec (decode w) s = .next t ∧ step s = .next (t.setBudget t.budget.spend)

/-- A well-formed instruction whose word stands at PC is the one a step of a running core runs (44_sequencer.md R213). -/
def Obligations.StepRunsTheEncodedInstruction : Prop :=
  ∀ (i : Instr) (s : State), i.wellFormed = true → s.running → s.rom[s.pc.toNat]? = some (encode i) →
    ∃ t, exec i s = .next t ∧ step s = .next (t.setBudget t.budget.spend)

/-- A word loaded by withFetchWord is the one the next step runs, whatever the state (the model's load, log entry 12). -/
def Obligations.LoadedWordIsTheNextStep : Prop :=
  ∀ (s : State) (w : Word),
    let s' := s.withFetchWord 16 w.toNat
    s'.running ∧ s'.regA = s.regA ∧ s'.regD = s.regD ∧ s'.pc = s.pc ∧ s'.mem = s.mem ∧ s'.written = s.written ∧
    ∃ t, exec (decode w) s' = .next t ∧ step s' = .next (t.setBudget t.budget.spend)

/-- Halting (44_sequencer.md R211): exactly when PC >= ROM_LEN or BUDGET = 0, and a halted state is final. That a step of
a halted core answers the same state is the model's choice (log entry 5). -/
def Obligations.HaltedStatesAreFinal : Prop :=
  ∀ s : State, (s.halted = true ↔ s.rom.length ≤ s.pc.toNat ∨ s.budget = .limited 0) ∧
    (s.halted = true → ∀ k, Host.Core.run Sys2Proof.core k s = .next s)

/-- The budget (44_sequencer.md R212): each executed instruction takes one unit of a finite budget and none of an
unlimited one, which never halts the core. -/
def Obligations.EachInstructionSpendsOneBudgetUnit : Prop :=
  ∀ s : State,
    (s.running → ∃ t, step s = .next t ∧
      (∀ n, s.budget = .limited n → 0 < n ∧ t.budget = .limited (n - 1)) ∧
      (s.budget = .unlimited → t.budget = .unlimited)) ∧
    (s.budget = .unlimited → (s.halted = true ↔ s.rom.length ≤ s.pc.toNat))

/-- A finite budget B bounds the run (44_sequencer.md R212: "A finite budget B > 0 allows at most B steps"): from every
state with budget B the core is halted after B steps (a halted core answering itself, log entry 5). -/
def Obligations.FiniteBudgetHaltsWithinBudgetSteps : Prop :=
  ∀ (b : Nat) (s : State), s.budget = .limited b →
    ∃ t, Host.Core.run Sys2Proof.core b s = .next t ∧ t.halted = true

/-- The end of a run is unique (44_sequencer.md R211, R215, R217): from one state, two halted ends are the same state.
EndsIn takes any halted state a run answers, which is the first one because a halted core answers its own state: the
model's choice for the spec's "performs no step" (log entry 5). -/
def Obligations.RunsEndInOneState : Prop :=
  ∀ s e e' : State, EndsIn s e → EndsIn s e' → e = e'

/-- PC + 1 never wraps while the core runs a program of at most 32768 words (10_state.md R24). -/
def Obligations.PcNeverWraps : Prop :=
  ∀ s : State, s.Inv → s.running → (s.pc + 1).toNat = s.pc.toNat + 1

/-! ### Memory, output and invariants -/

/-- MemRead and MemWrite (20_memory.md R41, R42): the address written reads the value, every other word and every
register is as before, WRITTEN gains exactly that address, and at the start of a run every address reads 0. -/
def Obligations.MemWriteThenMemRead : Prop :=
  (∀ (s : State) (a v : Word), s.mem.wf →
    (s.memWrite a v).memRead a = v ∧ (∀ b, b ≠ a → (s.memWrite a v).memRead b = s.memRead b) ∧
    (∀ n : Nat, n ∈ (s.memWrite a v).written ↔ n = a.toNat ∨ n ∈ s.written) ∧
    (s.memWrite a v).regA = s.regA ∧ (s.memWrite a v).regD = s.regD ∧ (s.memWrite a v).pc = s.pc) ∧
  ∀ (initA initD : Word) (b : Budget) (rom : List Word) (a : Word), (State.start initA initD b rom).memRead a = 0

/-- The state at the start of a run (70_reset_and_hazards.md R250), for every INIT_A, INIT_D, budget and program; and
the reset state is such a state, with values that are the model's choice (log entries 3 and 4). -/
def Obligations.RunStartsFromTheResetState : Prop :=
  (∀ (initA initD : Word) (b : Budget) (rom : List Word),
    let s := State.start initA initD b rom
    s.regA = initA ∧ s.regD = initD ∧ s.pc = 0 ∧ (∀ a, s.memRead a = 0) ∧ s.written = [] ∧ s.budget = b ∧
    s.rom = rom) ∧
  State.reset = State.start 0 0 .unlimited []

/-- Every start state with a program of at most 32768 words meets the invariant, the reset state among them. -/
def Obligations.StartStatesMeetTheInvariant : Prop :=
  (∀ (initA initD : Word) (b : Budget) (rom : List Word), rom.length ≤ 32768 →
    (State.start initA initD b rom).Inv) ∧ State.reset.Inv

/-- Every step keeps the invariant: memory and WRITTEN canonical, every nonzero word accounted for in WRITTEN, the
program at most 32768 words. -/
def Obligations.EveryStepKeepsTheInvariant : Prop :=
  ∀ s t : State, s.Inv → step s = .next t → t.Inv

/-- No step changes the program (20_memory.md R51, 10_state.md R29). That step answers a next state, its own, also from
a halted state is the model's choice (log entry 5). -/
def Obligations.NoStepChangesTheProgram : Prop :=
  ∀ s : State, ∃ t, step s = .next t ∧ t.rom = s.rom

/-- A step removes no address from WRITTEN, adds at most the old A, and changes only words whose address it records
(10_state.md R30, 20_memory.md R42). That step answers a next state, its own, also from a halted state is the model's
choice (log entry 5). -/
def Obligations.EveryChangedWordIsRecordedInWritten : Prop :=
  ∀ s : State, ∃ t, step s = .next t ∧ (∀ a ∈ s.written, a ∈ t.written) ∧
    (∀ a ∈ t.written, a ∈ s.written ∨ a = s.regA.toNat) ∧
    (∀ a : Nat, t.mem.read a ≠ s.mem.read a → a ∈ t.written)

/-- The output (44_sequencer.md R214): in ascending address order, exactly the written addresses with their final words;
every word that is not 0 appears. -/
def Obligations.OutputIsTheWrittenMemoryMap : Prop :=
  ∀ s : State, s.Inv →
    (s.output.map Prod.fst).Pairwise (· < ·) ∧
    (∀ (a : Nat) (v : Word), (a, v) ∈ s.output ↔ a ∈ s.written ∧ v = s.mem.read a) ∧
    (∀ a : Nat, s.mem.read a ≠ 0 → (a, s.mem.read a) ∈ s.output)

/-! ### The assembly language and the launch -/

/-- The textual binary form (30_encoding.md R72): a word's text has 16 characters, character i (the leftmost is 0) is
bit 15 - i, and the text reads back as the word. -/
def Obligations.WordTextReadsBack : Prop :=
  ∀ w : Word, (wordText w).length = 16 ∧
    (∀ i, i < 16 → (wordText w)[i]? = some (if w.getLsbD (15 - i) then '1' else '0')) ∧
    parseWord (wordText w) = some w

/-- Commands `[dest=]comp[;jump]` with every spelling of the spec's tables assemble, in source order, to the words
`111 comp dest jump` with the codes those tables give (30_encoding.md R73 to R75, R85, R91, R92). -/
def Obligations.TableCommandsAssemble : Prop :=
  ∀ rows : List CommandRows, (∀ r ∈ rows, r.inTables) →
    assemble (rows.map CommandRows.text) = .ok (rows.map CommandRows.word)

/-- A source with a command line that no rows of the spec's tables spell does not assemble, and as a source of its own
that line is InvalidMnemonic (30_encoding.md R74, R85, R94). That `=` with nothing before it and `;` with nothing after
it are such lines is the model's choice (log entry 16). -/
def Obligations.OtherCommandsAreInvalidMnemonics : Prop :=
  ∀ (lines : List Line) (l text : Line), l ∈ lines → classify l = .command text →
    (∀ r : CommandRows, r.inTables → text ≠ r.text) →
    (∃ e, assemble lines = .error e) ∧ assemble [l] = .error .invalidMnemonic

/-- The assembler emits one word per address or command line (30_encoding.md R92), never a word with an unnamed code
(R85) and never a command word whose bits 14:13 are not 11 (R68). -/
def Obligations.AssembledWordsAreNamedInstructions : Prop :=
  ∀ (lines : List Line) (ws : List Word), assemble lines = .ok ws →
    ws.length = ((lines.map classify).filter isInstrLine).length ∧
    ∀ w ∈ ws, encode (decode w) = w ∧ ∀ y c d j, decode w ≠ .unnamed y c d j

/-- No symbol is reassigned within one assembly run (30_encoding.md R90): a binding survives every define and allocate,
a defined or allocated name is bound as the operation says, and the first variable gets address 16, the next 17. -/
def Obligations.SymbolsAreNeverReassigned : Prop :=
  (∀ (t t' : SymbolTable) (name other : List Char) (n addr : Nat), t.lookup name = some n →
    (t.define other addr = .ok t' → t'.lookup name = some n) ∧
    (t.allocate other = .ok (addr, t') → t'.lookup name = some n)) ∧
  (∀ (t t' : SymbolTable) (name : List Char) (addr : Nat),
    (t.define name addr = .ok t' → t'.lookup name = some addr) ∧
    (t.allocate name = .ok (addr, t') → t'.lookup name = some addr)) ∧
  ∀ (i j : List Char), i ≠ j → SymbolTable.predefined.lookup i = none → SymbolTable.predefined.lookup j = none →
    ∃ t t', SymbolTable.predefined.allocate i = .ok (16, t) ∧ t.allocate i = .ok (16, t) ∧
      t.allocate j = .ok (17, t')

/-- A binary program launches as its words (30_encoding.md R95, 70_reset_and_hazards.md R251): the run starts from the
start state with that ROM and budget. -/
def Obligations.BinaryProgramsLaunch : Prop :=
  ∀ (ws : List Word) (initA initD : Word), ws.length ≤ 32768 →
    launch { lines := ws.map wordText, isSourceForm := false, cycleBudget := .sentinel, initA := initA, initD := initD }
      = .next (State.start initA initD .unlimited ws) ∧
    ∀ n : Nat,
      launch { lines := ws.map wordText, isSourceForm := false, cycleBudget := .int n, initA := initA, initD := initD }
        = .next (State.start initA initD (.limited n) ws)

/-- What refuses a launch (60_exceptions.md R237), and under which name: a malformed binary line, each assembler error
(30_encoding.md R94; MalformedAddressLiteral as InvalidMnemonic), a program longer than 32768 words, a negative budget
that is not the sentinel. That a malformed label line is refused, under its own name, is the model's choice (log entry
15), and so is which of several refusals is named (log entry 18). -/
def Obligations.BadLaunchesAreRefused : Prop :=
  ∀ args : LaunchArgs,
    (args.isSourceForm = false → (∃ l ∈ args.lines, parseWord l = none) →
      launch args = .refused .malformedBinaryLine) ∧
    (args.isSourceForm = true →
      (assemble args.lines = .error .invalidMnemonic → launch args = .refused .invalidMnemonic) ∧
      (assemble args.lines = .error .malformedAddressLiteral → launch args = .refused .invalidMnemonic) ∧
      (assemble args.lines = .error .duplicateLabelDefinition → launch args = .refused .duplicateLabelDefinition) ∧
      (assemble args.lines = .error .malformedLabelDeclaration → launch args = .refused .malformedLabelDeclaration)) ∧
    (∀ ws, readProgram args.isSourceForm args.lines = .ok ws → 32768 < ws.length →
      launch args = .refused .programTooLong) ∧
    (∀ ws n, readProgram args.isSourceForm args.lines = .ok ws → ws.length ≤ 32768 →
      args.cycleBudget = .int (.negSucc n) → launch args = .refused .invalidBudget)

/-- An accepted launch starts from a state of R250 that meets the invariant, with the program the lines stand for. -/
def Obligations.AcceptedLaunchesMeetTheInvariant : Prop :=
  ∀ (args : LaunchArgs) (s : State), launch args = .next s →
    s.Inv ∧ ∃ b ws, args.cycleBudget.budget = .ok b ∧ readProgram args.isSourceForm args.lines = .ok ws ∧
      s = State.start args.initA args.initD b ws
end

