-- ==== Sys2Proof/Laws/Memory.lean ====
section
/-! SUPPORT. The laws of data memory and of WRITTEN: read after write, and that every operation keeps the canonical
form. -/

namespace Sys2Proof.Machine

/-! ### Data memory (20_memory.md R41, R42) -/

/-- An address listed nowhere reads 0. -/
theorem Memory.read_of_not_listed {m : Memory} {a : Nat} (h : ∀ c ∈ m, c.1 ≠ a) : m.read a = Config.unwritten := by
  induction m with
  | nil => rfl
  | cons c m ih => simp [Memory.read, h c (by simp), ih (fun c hc => h c (by simp [hc]))]

/-- A write leaves every other address alone. -/
theorem Memory.read_write_other (m : Memory) (a b : Nat) (v : Word) (h : b ≠ a) :
    (m.write a v).read b = m.read b := by
  induction m with
  | nil => by_cases hv : v = Config.unwritten <;> simp [Memory.write, Memory.read, hv, h.symm]
  | cons c m ih =>
    obtain ⟨k, u⟩ := c
    by_cases h1 : k < a
    · simp [Memory.write, Memory.read, h1, ih]
    · by_cases h2 : k = a
      · subst h2
        by_cases hv : v = Config.unwritten <;> simp [Memory.write, Memory.read, hv, h.symm]
      · by_cases hv : v = Config.unwritten <;> simp [Memory.write, Memory.read, h1, h2, hv, h.symm]

/-- The address written reads the value. -/
theorem Memory.read_write_same (m : Memory) (a : Nat) (v : Word) (hm : m.wf) : (m.write a v).read a = v := by
  induction m with
  | nil => by_cases hv : v = Config.unwritten <;> simp [Memory.write, Memory.read, hv]
  | cons c m ih =>
    obtain ⟨k, u⟩ := c
    obtain ⟨hs, hb⟩ := hm
    have htail : Memory.wf m := ⟨(List.pairwise_cons.1 hs).2, fun c hc => hb c (by simp [hc])⟩
    have hgt : ∀ c ∈ m, k < c.1 := (List.pairwise_cons.1 hs).1
    by_cases h1 : k < a
    · simp [Memory.write, Memory.read, h1, Nat.ne_of_lt h1, ih htail]
    · by_cases hv : v = Config.unwritten
      · by_cases h2 : k = a
        · simpa [Memory.write, h2, hv] using Memory.read_of_not_listed (fun c hc => by have := hgt c hc; omega)
        · simpa [Memory.write, Memory.read, h1, h2, hv] using
            Memory.read_of_not_listed (fun c hc => by have := hgt c hc; omega)
      · simp [Memory.write, Memory.read, h1, hv]

/-- What a write lists: the old cells of other addresses, and the new one. -/
theorem Memory.mem_write {m : Memory} {a : Nat} {v : Word} {c : Nat × Word} (h : c ∈ m.write a v) :
    c ∈ m ∨ (c = (a, v) ∧ v ≠ Config.unwritten) := by
  induction m with
  | nil => by_cases hv : v = Config.unwritten <;> simp_all [Memory.write]
  | cons x m ih =>
    obtain ⟨k, u⟩ := x
    by_cases h1 : k < a
    · simp only [Memory.write, h1, if_true, List.mem_cons] at h ⊢
      rcases h with h | h
      · exact .inl (.inl h)
      · exact (ih h).imp .inr id
    · by_cases h2 : k = a
      · subst h2
        by_cases hv : v = Config.unwritten <;> simp [Memory.write, hv] at h ⊢ <;> tauto
      · by_cases hv : v = Config.unwritten <;> simp [Memory.write, h1, h2, hv] at h ⊢ <;> tauto

/-- Every write keeps the canonical form. -/
theorem Memory.write_wf {m : Memory} {a : Nat} {v : Word} (hm : m.wf) (ha : a < Config.dataWords) :
    (m.write a v).wf := by
  refine ⟨?_, fun c hc => ?_⟩
  · obtain ⟨hs, -⟩ := hm
    induction m with
    | nil => by_cases hv : v = Config.unwritten <;> simp [Memory.write, hv]
    | cons x m ih =>
      obtain ⟨k, u⟩ := x
      obtain ⟨hgt, hs'⟩ := List.pairwise_cons.1 hs
      by_cases h1 : k < a
      · simp only [Memory.write, h1, if_true, List.pairwise_cons]
        refine ⟨fun c hc => ?_, ih hs'⟩
        rcases Memory.mem_write hc with hc | ⟨rfl, -⟩
        · exact hgt c hc
        · exact h1
      · by_cases h2 : k = a
        · by_cases hv : v = Config.unwritten
          · simpa [Memory.write, h2, hv] using hs'
          · simp only [Memory.write, h2, hv, lt_irrefl, if_false, if_true, List.pairwise_cons]
            exact ⟨fun c hc => h2 ▸ hgt c hc, hs'⟩
        · by_cases hv : v = Config.unwritten
          · simpa [Memory.write, h1, h2, hv] using hs
          · simp only [Memory.write, h1, h2, hv, if_false, List.pairwise_cons, List.mem_cons]
            refine ⟨?_, hgt, hs'⟩
            rintro c (rfl | hc)
            · show a < k
              omega
            · have := hgt c hc
              show a < c.1
              omega
  · rcases Memory.mem_write hc with hc | ⟨rfl, hv⟩
    · exact hm.2 c hc
    · exact ⟨ha, hv⟩

/-! ### WRITTEN (10_state.md R30) -/

/-- Inserting adds the address and nothing else. -/
@[simp] theorem WrittenSet.mem_insert {l : List Nat} {a b : Nat} : b ∈ WrittenSet.insert l a ↔ b = a ∨ b ∈ l := by
  induction l with
  | nil => simp [WrittenSet.insert]
  | cons k l ih =>
    by_cases h1 : k < a
    · simp only [WrittenSet.insert, h1, if_true, List.mem_cons, ih]
      tauto
    · by_cases h2 : k = a
      · subst h2
        simp [WrittenSet.insert]
      · simp [WrittenSet.insert, h1, h2]

/-- Inserting keeps the canonical form. -/
theorem WrittenSet.insert_wf {l : List Nat} {a : Nat} (hl : WrittenSet.wf l) (ha : a < Config.dataWords) :
    WrittenSet.wf (WrittenSet.insert l a) := by
  refine ⟨?_, fun b hb => ?_⟩
  · obtain ⟨hs, -⟩ := hl
    induction l with
    | nil => simp [WrittenSet.insert]
    | cons k l ih =>
      obtain ⟨hgt, hs'⟩ := List.pairwise_cons.1 hs
      by_cases h1 : k < a
      · simp only [WrittenSet.insert, h1, if_true, List.pairwise_cons, WrittenSet.mem_insert]
        refine ⟨?_, ih hs'⟩
        rintro b (rfl | hb)
        · exact h1
        · exact hgt b hb
      · by_cases h2 : k = a
        · simpa [WrittenSet.insert, h1, h2] using hs
        · simp only [WrittenSet.insert, h1, h2, if_false, List.pairwise_cons, List.mem_cons]
          refine ⟨?_, hgt, hs'⟩
          rintro b (rfl | hb)
          · omega
          · have := hgt b hb
            omega
  · rcases WrittenSet.mem_insert.1 hb with rfl | hb
    · exact ha
    · exact hl.2 b hb

end Sys2Proof.Machine
end

