-- ==== Sys2Proof/Laws/PerInstr.lean ====
section
/-! SUPPORT. Statements per instruction. Family EncodeClass: bit 15 of an instruction's word tells its class
(30_encoding.md R61). -/

namespace Sys2Proof.Laws

/-- Bit 15 of a command word is 1, whatever its fields (30_encoding.md R91). -/
theorem commandWord_bit15 (code : BitVec 7) (d : Dest) (j : Jump) : (commandWord code d j).getLsbD 15 = true := by
  rw [commandWord, BitVec.getLsbD_append, BitVec.getLsbD_append, BitVec.getLsbD_append]
  rfl

/-- Bit 15 of the encoded word is 1 exactly for a command instruction (30_encoding.md R61). -/
def EncodeClass.Statement (i : Instr) : Prop := (encode i).getLsbD 15 = i.isCommand

theorem EncodeClass.atValue (v : BitVec 15) : EncodeClass.Statement (.atValue v) := by
  show (0b0#1 ++ v).getLsbD 15 = false
  rw [BitVec.getLsbD_append]
  rfl

theorem EncodeClass.zero (d : Dest) (j : Jump) : EncodeClass.Statement (.zero d j) := commandWord_bit15 _ d j
theorem EncodeClass.one (d : Dest) (j : Jump) : EncodeClass.Statement (.one d j) := commandWord_bit15 _ d j
theorem EncodeClass.minusOne (d : Dest) (j : Jump) : EncodeClass.Statement (.minusOne d j) := commandWord_bit15 _ d j
theorem EncodeClass.passD (d : Dest) (j : Jump) : EncodeClass.Statement (.passD d j) := commandWord_bit15 _ d j
theorem EncodeClass.passA (d : Dest) (j : Jump) : EncodeClass.Statement (.passA d j) := commandWord_bit15 _ d j
theorem EncodeClass.notD (d : Dest) (j : Jump) : EncodeClass.Statement (.notD d j) := commandWord_bit15 _ d j
theorem EncodeClass.notA (d : Dest) (j : Jump) : EncodeClass.Statement (.notA d j) := commandWord_bit15 _ d j
theorem EncodeClass.negD (d : Dest) (j : Jump) : EncodeClass.Statement (.negD d j) := commandWord_bit15 _ d j
theorem EncodeClass.negA (d : Dest) (j : Jump) : EncodeClass.Statement (.negA d j) := commandWord_bit15 _ d j
theorem EncodeClass.incD (d : Dest) (j : Jump) : EncodeClass.Statement (.incD d j) := commandWord_bit15 _ d j
theorem EncodeClass.incA (d : Dest) (j : Jump) : EncodeClass.Statement (.incA d j) := commandWord_bit15 _ d j
theorem EncodeClass.decD (d : Dest) (j : Jump) : EncodeClass.Statement (.decD d j) := commandWord_bit15 _ d j
theorem EncodeClass.decA (d : Dest) (j : Jump) : EncodeClass.Statement (.decA d j) := commandWord_bit15 _ d j
theorem EncodeClass.dPlusA (d : Dest) (j : Jump) : EncodeClass.Statement (.dPlusA d j) := commandWord_bit15 _ d j
theorem EncodeClass.dMinusA (d : Dest) (j : Jump) : EncodeClass.Statement (.dMinusA d j) := commandWord_bit15 _ d j
theorem EncodeClass.aMinusD (d : Dest) (j : Jump) : EncodeClass.Statement (.aMinusD d j) := commandWord_bit15 _ d j
theorem EncodeClass.dAndA (d : Dest) (j : Jump) : EncodeClass.Statement (.dAndA d j) := commandWord_bit15 _ d j
theorem EncodeClass.dOrA (d : Dest) (j : Jump) : EncodeClass.Statement (.dOrA d j) := commandWord_bit15 _ d j
theorem EncodeClass.passM (d : Dest) (j : Jump) : EncodeClass.Statement (.passM d j) := commandWord_bit15 _ d j
theorem EncodeClass.notM (d : Dest) (j : Jump) : EncodeClass.Statement (.notM d j) := commandWord_bit15 _ d j
theorem EncodeClass.negM (d : Dest) (j : Jump) : EncodeClass.Statement (.negM d j) := commandWord_bit15 _ d j
theorem EncodeClass.incM (d : Dest) (j : Jump) : EncodeClass.Statement (.incM d j) := commandWord_bit15 _ d j
theorem EncodeClass.decM (d : Dest) (j : Jump) : EncodeClass.Statement (.decM d j) := commandWord_bit15 _ d j
theorem EncodeClass.dPlusM (d : Dest) (j : Jump) : EncodeClass.Statement (.dPlusM d j) := commandWord_bit15 _ d j
theorem EncodeClass.dMinusM (d : Dest) (j : Jump) : EncodeClass.Statement (.dMinusM d j) := commandWord_bit15 _ d j
theorem EncodeClass.mMinusD (d : Dest) (j : Jump) : EncodeClass.Statement (.mMinusD d j) := commandWord_bit15 _ d j
theorem EncodeClass.dAndM (d : Dest) (j : Jump) : EncodeClass.Statement (.dAndM d j) := commandWord_bit15 _ d j
theorem EncodeClass.dOrM (d : Dest) (j : Jump) : EncodeClass.Statement (.dOrM d j) := commandWord_bit15 _ d j
theorem EncodeClass.unnamed (y : YSource) (c : AluControl) (d : Dest) (j : Jump) :
    EncodeClass.Statement (.unnamed y c d j) := commandWord_bit15 _ d j

end Sys2Proof.Laws
end

