-- ==== Sys2Proof/Laws/State.lean ====
section
/-! SUPPORT. One lemma per field per update of the state, so that no later proof unfolds a record update. -/

namespace Sys2Proof.Machine

@[simp] theorem State.setA_regA (s : State) (v : Word) : (s.setA v).regA = v := rfl
@[simp] theorem State.setA_regD (s : State) (v : Word) : (s.setA v).regD = s.regD := rfl
@[simp] theorem State.setA_pc (s : State) (v : Word) : (s.setA v).pc = s.pc := rfl
@[simp] theorem State.setA_mem (s : State) (v : Word) : (s.setA v).mem = s.mem := rfl
@[simp] theorem State.setA_written (s : State) (v : Word) : (s.setA v).written = s.written := rfl
@[simp] theorem State.setA_budget (s : State) (v : Word) : (s.setA v).budget = s.budget := rfl
@[simp] theorem State.setA_rom (s : State) (v : Word) : (s.setA v).rom = s.rom := rfl

@[simp] theorem State.setD_regA (s : State) (v : Word) : (s.setD v).regA = s.regA := rfl
@[simp] theorem State.setD_regD (s : State) (v : Word) : (s.setD v).regD = v := rfl
@[simp] theorem State.setD_pc (s : State) (v : Word) : (s.setD v).pc = s.pc := rfl
@[simp] theorem State.setD_mem (s : State) (v : Word) : (s.setD v).mem = s.mem := rfl
@[simp] theorem State.setD_written (s : State) (v : Word) : (s.setD v).written = s.written := rfl
@[simp] theorem State.setD_budget (s : State) (v : Word) : (s.setD v).budget = s.budget := rfl
@[simp] theorem State.setD_rom (s : State) (v : Word) : (s.setD v).rom = s.rom := rfl

@[simp] theorem State.setPc_regA (s : State) (v : Word) : (s.setPc v).regA = s.regA := rfl
@[simp] theorem State.setPc_regD (s : State) (v : Word) : (s.setPc v).regD = s.regD := rfl
@[simp] theorem State.setPc_pc (s : State) (v : Word) : (s.setPc v).pc = v := rfl
@[simp] theorem State.setPc_mem (s : State) (v : Word) : (s.setPc v).mem = s.mem := rfl
@[simp] theorem State.setPc_written (s : State) (v : Word) : (s.setPc v).written = s.written := rfl
@[simp] theorem State.setPc_budget (s : State) (v : Word) : (s.setPc v).budget = s.budget := rfl
@[simp] theorem State.setPc_rom (s : State) (v : Word) : (s.setPc v).rom = s.rom := rfl

@[simp] theorem State.setBudget_regA (s : State) (b : Budget) : (s.setBudget b).regA = s.regA := rfl
@[simp] theorem State.setBudget_regD (s : State) (b : Budget) : (s.setBudget b).regD = s.regD := rfl
@[simp] theorem State.setBudget_pc (s : State) (b : Budget) : (s.setBudget b).pc = s.pc := rfl
@[simp] theorem State.setBudget_mem (s : State) (b : Budget) : (s.setBudget b).mem = s.mem := rfl
@[simp] theorem State.setBudget_written (s : State) (b : Budget) : (s.setBudget b).written = s.written := rfl
@[simp] theorem State.setBudget_budget (s : State) (b : Budget) : (s.setBudget b).budget = b := rfl
@[simp] theorem State.setBudget_rom (s : State) (b : Budget) : (s.setBudget b).rom = s.rom := rfl

@[simp] theorem State.memWrite_regA (s : State) (a v : Word) : (s.memWrite a v).regA = s.regA := rfl
@[simp] theorem State.memWrite_regD (s : State) (a v : Word) : (s.memWrite a v).regD = s.regD := rfl
@[simp] theorem State.memWrite_pc (s : State) (a v : Word) : (s.memWrite a v).pc = s.pc := rfl
@[simp] theorem State.memWrite_mem (s : State) (a v : Word) : (s.memWrite a v).mem = s.mem.write a.toNat v := rfl
@[simp] theorem State.memWrite_written (s : State) (a v : Word) : (s.memWrite a v).written = WrittenSet.insert s.written a.toNat := rfl
@[simp] theorem State.memWrite_budget (s : State) (a v : Word) : (s.memWrite a v).budget = s.budget := rfl
@[simp] theorem State.memWrite_rom (s : State) (a v : Word) : (s.memWrite a v).rom = s.rom := rfl

@[simp] theorem State.start_regA (a d : Word) (b : Budget) (rom : List Word) : (State.start a d b rom).regA = a := rfl
@[simp] theorem State.start_regD (a d : Word) (b : Budget) (rom : List Word) : (State.start a d b rom).regD = d := rfl
@[simp] theorem State.start_pc (a d : Word) (b : Budget) (rom : List Word) : (State.start a d b rom).pc = 0 := rfl
@[simp] theorem State.start_mem (a d : Word) (b : Budget) (rom : List Word) : (State.start a d b rom).mem = [] := rfl
@[simp] theorem State.start_written (a d : Word) (b : Budget) (rom : List Word) : (State.start a d b rom).written = [] := rfl
@[simp] theorem State.start_budget (a d : Word) (b : Budget) (rom : List Word) : (State.start a d b rom).budget = b := rfl
@[simp] theorem State.start_rom (a d : Word) (b : Budget) (rom : List Word) : (State.start a d b rom).rom = rom := rfl

@[simp] theorem State.loadAtPc_regA (s : State) (w : Word) : (s.loadAtPc w).regA = s.regA := rfl
@[simp] theorem State.loadAtPc_regD (s : State) (w : Word) : (s.loadAtPc w).regD = s.regD := rfl
@[simp] theorem State.loadAtPc_pc (s : State) (w : Word) : (s.loadAtPc w).pc = s.pc := rfl
@[simp] theorem State.loadAtPc_mem (s : State) (w : Word) : (s.loadAtPc w).mem = s.mem := rfl
@[simp] theorem State.loadAtPc_written (s : State) (w : Word) : (s.loadAtPc w).written = s.written := rfl
@[simp] theorem State.loadAtPc_budget (s : State) (w : Word) : (s.loadAtPc w).budget = if s.budget.exhausted then .limited 1 else s.budget := rfl
@[simp] theorem State.loadAtPc_rom (s : State) (w : Word) : (s.loadAtPc w).rom = placeWord s.rom s.pc.toNat w := rfl

@[simp] theorem Budget.spend_limited (n : Nat) : (Budget.limited n).spend = .limited (n - 1) := rfl
@[simp] theorem Budget.spend_unlimited : Budget.unlimited.spend = .unlimited := rfl
@[simp] theorem Budget.exhausted_limited (n : Nat) : (Budget.limited n).exhausted = (n == 0) := rfl
@[simp] theorem Budget.exhausted_unlimited : Budget.unlimited.exhausted = false := rfl
@[simp] theorem spendBudget_next (s : State) : spendBudget (.next s) = .next (s.setBudget s.budget.spend) := rfl

/-- Halting in terms of the two conditions of 44_sequencer.md R211. -/
theorem State.halted_iff (s : State) : s.halted = true ↔ s.rom.length ≤ s.pc.toNat ∨ s.budget = .limited 0 := by
  cases hb : s.budget <;> simp [State.halted, hb]

/-- Running in terms of the same two conditions. -/
theorem State.not_halted_iff (s : State) : s.halted = false ↔ s.pc.toNat < s.rom.length ∧ s.budget ≠ .limited 0 := by
  cases hb : s.budget <;> simp [State.halted, hb]

/-- What a running core fetches is the word of its ROM at PC (44_sequencer.md R213). -/
theorem State.fetch_eq (s : State) (h : s.pc.toNat < s.rom.length) : s.fetch = s.rom[s.pc.toNat] := by
  simp [State.fetch, h]

end Sys2Proof.Machine
end

