-- ==== Sys2Proof/Laws/Step.lean ====
section
/-! SUPPORT. What writeback and branch, a command instruction, exec and a step can do, said once. -/

namespace Sys2Proof.Machine

/-! ### The three receivers (42_command.md R160) and the next PC (43_jump.md R199), field by field -/

@[simp] theorem State.receive_regA (s : State) (d : Dest) (aOld out : Word) :
    (s.receive d aOld out).regA = if d.dA then out else s.regA := by
  rcases d with ⟨dA, dD, dM⟩; cases dA <;> cases dD <;> cases dM <;> rfl

@[simp] theorem State.receive_regD (s : State) (d : Dest) (aOld out : Word) :
    (s.receive d aOld out).regD = if d.dD then out else s.regD := by
  rcases d with ⟨dA, dD, dM⟩; cases dA <;> cases dD <;> cases dM <;> rfl

@[simp] theorem State.receive_pc (s : State) (d : Dest) (aOld out : Word) :
    (s.receive d aOld out).pc = s.pc := by
  rcases d with ⟨dA, dD, dM⟩; cases dA <;> cases dD <;> cases dM <;> rfl

@[simp] theorem State.receive_mem (s : State) (d : Dest) (aOld out : Word) :
    (s.receive d aOld out).mem = if d.dM then s.mem.write aOld.toNat out else s.mem := by
  rcases d with ⟨dA, dD, dM⟩; cases dA <;> cases dD <;> cases dM <;> rfl

@[simp] theorem State.receive_written (s : State) (d : Dest) (aOld out : Word) :
    (s.receive d aOld out).written = if d.dM then WrittenSet.insert s.written aOld.toNat else s.written := by
  rcases d with ⟨dA, dD, dM⟩; cases dA <;> cases dD <;> cases dM <;> rfl

@[simp] theorem State.receive_budget (s : State) (d : Dest) (aOld out : Word) :
    (s.receive d aOld out).budget = s.budget := by
  rcases d with ⟨dA, dD, dM⟩; cases dA <;> cases dD <;> cases dM <;> rfl

@[simp] theorem State.receive_rom (s : State) (d : Dest) (aOld out : Word) :
    (s.receive d aOld out).rom = s.rom := by
  rcases d with ⟨dA, dD, dM⟩; cases dA <;> cases dD <;> cases dM <;> rfl

@[simp] theorem writeback_regA (d : Dest) (j : Jump) (out : Word) (s : State) :
    (writeback d j out s).regA = if d.dA then out else s.regA := by
  simp [writeback]

@[simp] theorem writeback_regD (d : Dest) (j : Jump) (out : Word) (s : State) :
    (writeback d j out s).regD = if d.dD then out else s.regD := by
  simp [writeback]

@[simp] theorem writeback_pc (d : Dest) (j : Jump) (out : Word) (s : State) :
    (writeback d j out s).pc = if taken j out then s.regA else s.pc + 1 := by
  simp [writeback]

@[simp] theorem writeback_mem (d : Dest) (j : Jump) (out : Word) (s : State) :
    (writeback d j out s).mem = if d.dM then s.mem.write s.regA.toNat out else s.mem := by
  simp [writeback]

@[simp] theorem writeback_written (d : Dest) (j : Jump) (out : Word) (s : State) :
    (writeback d j out s).written = if d.dM then WrittenSet.insert s.written s.regA.toNat else s.written := by
  simp [writeback]

@[simp] theorem writeback_budget (d : Dest) (j : Jump) (out : Word) (s : State) :
    (writeback d j out s).budget = s.budget := by
  simp [writeback]

@[simp] theorem writeback_rom (d : Dest) (j : Jump) (out : Word) (s : State) :
    (writeback d j out s).rom = s.rom := by
  simp [writeback]

/-- Everything a command instruction can do is writeback with the ALU's result. -/
theorem command_eq (y : YSource) (c : AluControl) (d : Dest) (j : Jump) (s : State) :
    command y c d j s = writeback d j (alu c s.regD (operandY y s)) s := rfl

/-! ### exec and step -/

/-- Every instruction is an address instruction with its effect, or a command with some operand select and control
pattern. -/
theorem exec_cases (i : Instr) (s : State) :
    (∃ v, i = .atValue v ∧ exec i s = .next ((s.setA (v.zeroExtend 16)).setPc (s.pc + 1))) ∨
    (i.isCommand = true ∧ ∃ y c, ∀ s, exec i s = .next (command y c i.dest i.jump s)) := by
  cases i <;> first | exact .inl ⟨_, rfl, rfl⟩ | exact .inr ⟨rfl, _, _, fun _ => rfl⟩

/-- Everything an instruction can do to a state, as one disjunction over its class. -/
theorem exec_next_cases {i : Instr} {s t : State} (h : exec i s = .next t) :
    (∃ v, i = .atValue v ∧ t = (s.setA (v.zeroExtend 16)).setPc (s.pc + 1)) ∨
    (i.isCommand = true ∧ ∃ out, t = writeback i.dest i.jump out s) := by
  obtain ⟨v, hi, he⟩ | ⟨hc, y, c, he⟩ := exec_cases i s
  · exact .inl ⟨v, hi, by rw [he] at h; cases h; rfl⟩
  · exact .inr ⟨hc, _, by rw [he] at h; cases h; rfl⟩

/-- A step of a halted core answers its own state; a step of a running core runs the decoded instruction and spends
one unit of the budget. -/
theorem step_cases (s : State) :
    (s.halted = true ∧ step s = .next s) ∨
    (s.halted = false ∧ ∃ t, exec (decode s.fetch) s = .next t ∧ step s = .next (t.setBudget t.budget.spend)) := by
  cases hh : s.halted
  · refine .inr ⟨rfl, ?_⟩
    obtain ⟨v, -, he⟩ | ⟨-, y, c, he⟩ := exec_cases (decode s.fetch) s
    · exact ⟨_, he, by simp [step, hh, he]⟩
    · exact ⟨_, he s, by simp [step, hh, he s]⟩
  · exact .inl ⟨rfl, by simp [step, hh]⟩

/-- What a step leaves alone and how it counts, whichever instruction ran. -/
theorem step_next_cases {s t : State} (h : step s = .next t) :
    (s.halted = true ∧ t = s) ∨
    (s.halted = false ∧ ∃ u, exec (decode s.fetch) s = .next u ∧ t = u.setBudget u.budget.spend) := by
  obtain ⟨hh, hs⟩ | ⟨hh, u, hu, hs⟩ := step_cases s
  · exact .inl ⟨hh, by rw [hs] at h; cases h; rfl⟩
  · exact .inr ⟨hh, u, hu, by rw [hs] at h; cases h; rfl⟩

/-- No instruction changes the program or the budget (20_memory.md R51, 10_state.md R28). -/
theorem exec_next_rom_budget {i : Instr} {s t : State} (h : exec i s = .next t) :
    t.rom = s.rom ∧ t.budget = s.budget := by
  obtain ⟨v, -, rfl⟩ | ⟨-, out, rfl⟩ := exec_next_cases h <;> simp

/-! ### Loading a word at PC -/

theorem placeWord_getD (l : List Word) (n : Nat) (w : Word) : (placeWord l n w).getD n 0 = w := by
  induction n generalizing l with
  | zero => cases l <;> rfl
  | succ n ih => cases l <;> simpa [placeWord] using ih _

theorem lt_length_placeWord (l : List Word) (n : Nat) (w : Word) : n < (placeWord l n w).length := by
  induction n generalizing l with
  | zero => cases l <;> simp [placeWord]
  | succ n ih => cases l <;> simpa [placeWord] using ih _

/-- Loading changes no other word of a program that reaches PC. -/
theorem placeWord_of_lt (l : List Word) (n : Nat) (w : Word) (h : n < l.length) : placeWord l n w = l.set n w := by
  induction n generalizing l with
  | zero => cases l with
    | nil => simp at h
    | cons u l => rfl
  | succ n ih => cases l with
    | nil => simp at h
    | cons u l => simpa [placeWord] using ih l (by simpa using h)

/-- A state with a word loaded at PC runs, and fetches that word. -/
theorem State.loadAtPc_fetch (s : State) (w : Word) : (s.loadAtPc w).halted = false ∧ (s.loadAtPc w).fetch = w := by
  refine ⟨(State.not_halted_iff _).2 ⟨lt_length_placeWord _ _ _, ?_⟩, placeWord_getD _ _ _⟩
  rcases hb : s.budget with n | _
  · cases n <;> simp [hb]
  · simp [hb]

end Sys2Proof.Machine
end

