-- ==== Sys2Proof/Laws/Run.lean ====
section
/-! SUPPORT. Running the core, one step at a time. -/

namespace Sys2Proof.Machine

/-- Some number of steps that begins with a known step. -/
theorem run_of_step {k : Nat} {s t : State} (h : step s = .next t) :
    Host.Core.run Sys2Proof.core (k + 1) s = Host.Core.run Sys2Proof.core k t := by
  simp [Host.Core.run, show Host.Core.step Sys2Proof.core s = .next t from h]

/-- A step never faults and is never refused (44_sequencer.md R216: total on every non-halted state). -/
theorem step_total (s : State) : ∃ t, step s = .next t := by
  obtain ⟨-, h⟩ | ⟨-, t, -, h⟩ := step_cases s
  · exact ⟨s, h⟩
  · exact ⟨_, h⟩

/-- Runs compose. -/
theorem run_add {k j : Nat} {s t : State} (h : Host.Core.run Sys2Proof.core k s = .next t) :
    Host.Core.run Sys2Proof.core (k + j) s = Host.Core.run Sys2Proof.core j t := by
  induction k generalizing s with
  | zero =>
    cases h
    rw [Nat.zero_add]
  | succ k ih =>
    obtain ⟨u, hu⟩ := step_total s
    rw [run_of_step hu] at h
    rw [Nat.add_right_comm, run_of_step hu]
    exact ih h

end Sys2Proof.Machine
end

