-- ==== Sys2Proof/Tests/Slice0.lean ====
section
/-! SUPPORT. The model's own tests: words and results taken from the spec, and witnesses for the statements' hypotheses.
-/

namespace Sys2Proof.Tests

open Sys2Proof.Machine

/-! ### Helpers -/

/-- The outcome is a next state with the property. -/
def nextIs (o : Host.Outcome State Fault Refusal) (p : State → Bool) : Bool :=
  match o with
  | .next t => p t
  | .fault _ => false
  | .refused _ => false

/-- The launch or step is refused for this reason. -/
def refusedIs (o : Host.Outcome State Fault Refusal) (r : Refusal) : Bool :=
  match o with
  | .refused q => q == r
  | .next _ => false
  | .fault _ => false

/-- A start with D, A, one memory word at A, PC and a long ROM. -/
def mk (d a m : Word) (pc : Word) : State :=
  { regA := a, regD := d, pc := pc, mem := Memory.write [] a.toNat m, written := [], budget := .limited 10, rom := [] }

/-- The start of the examples of 41_alu.md section 2 and of 95_test_vectors.md section 5. -/
def base : State := mk 0x0009#16 0x0003#16 0x0005#16 0

/-- D after the word `w` from the start `base`. -/
def dAfter (w : Word) (v : Word) : Bool := nextIs (exec (decode w) base) (fun t => t.regD == v)

def dD : Dest := ⟨false, true, false⟩
def noJump : Jump := ⟨false, false, false⟩

/-! ### WellFormed smoke: a C-unnamed term with a named code is refused -/

theorem test_illformed_unnamed_passA : (Instr.unnamed .regA ⟨true, true, false, false, false, false⟩ dD noJump).wellFormed = false := by
  decide

theorem test_illformed_unnamed_dOrM : (Instr.unnamed .mem ⟨false, true, false, true, false, true⟩ dD noJump).wellFormed = false := by
  decide

theorem test_wellformed_unnamed_nand : (Instr.unnamed .regA ⟨false, false, false, false, false, true⟩ dD noJump).wellFormed = true := by
  decide

theorem test_namedCodes_28_distinct : namedCodes.length = 28 ∧ namedCodes.Nodup := by decide

theorem test_namedRows_28_distinct : namedRows.length = 28 ∧ (namedRows.map Prod.fst).Nodup := by decide

/-! ### Decoding: words of 41_alu.md R120 to R147 (destination D, no jump), 95_test_vectors.md S1, S8 and section 4 -/

theorem test_decode_address : decode 0b0000000000000010#16 = .atValue 2 ∧ decode 0b0111111111111111#16 = .atValue 32767 := by
  decide

theorem test_decode_constants : decode 0b1110101010010000#16 = .zero dD noJump ∧
    decode 0b1110111111010000#16 = .one dD noJump ∧ decode 0b1110111010010000#16 = .minusOne dD noJump := by decide

theorem test_decode_pass_not : decode 0b1110001100010000#16 = .passD dD noJump ∧
    decode 0b1110110000010000#16 = .passA dD noJump ∧ decode 0b1110001101010000#16 = .notD dD noJump ∧
    decode 0b1110110001010000#16 = .notA dD noJump := by decide

theorem test_decode_neg_inc_dec : decode 0b1110001111010000#16 = .negD dD noJump ∧
    decode 0b1110110011010000#16 = .negA dD noJump ∧ decode 0b1110011111010000#16 = .incD dD noJump ∧
    decode 0b1110110111010000#16 = .incA dD noJump ∧ decode 0b1110001110010000#16 = .decD dD noJump ∧
    decode 0b1110110010010000#16 = .decA dD noJump := by decide

theorem test_decode_two_register : decode 0b1110000010010000#16 = .dPlusA dD noJump ∧
    decode 0b1110010011010000#16 = .dMinusA dD noJump ∧ decode 0b1110000111010000#16 = .aMinusD dD noJump ∧
    decode 0b1110000000010000#16 = .dAndA dD noJump ∧ decode 0b1110010101010000#16 = .dOrA dD noJump := by decide

theorem test_decode_memory : decode 0b1111110000010000#16 = .passM dD noJump ∧
    decode 0b1111110001010000#16 = .notM dD noJump ∧ decode 0b1111110011010000#16 = .negM dD noJump ∧
    decode 0b1111110111010000#16 = .incM dD noJump ∧ decode 0b1111110010010000#16 = .decM dD noJump := by decide

theorem test_decode_register_memory : decode 0b1111000010010000#16 = .dPlusM dD noJump ∧
    decode 0b1111010011010000#16 = .dMinusM dD noJump ∧ decode 0b1111000111010000#16 = .mMinusD dD noJump ∧
    decode 0b1111000000010000#16 = .dAndM dD noJump ∧ decode 0b1111010101010000#16 = .dOrM dD noJump := by decide

theorem test_decode_unnamed : decode 0b1111000001010000#16 =
    .unnamed .mem ⟨false, false, false, false, false, true⟩ dD noJump := by decide

/-- Destinations and jumps: AM=M+1;JMP and AMD=A-D (95_test_vectors.md sections 5 and 6); bits 14:13 (Q11). -/
theorem test_decode_fields : decode 0b1111110111101111#16 = .incM ⟨true, false, true⟩ ⟨true, true, true⟩ ∧
    decode 0b1110000111111000#16 = .aMinusD ⟨true, true, true⟩ noJump ∧
    decode 0b1110001100000100#16 = .passD ⟨false, false, false⟩ ⟨true, false, false⟩ ∧
    decode 0b1000110000010000#16 = .passA dD noJump := by decide

theorem test_encode_address : encode (.atValue 2) = 0b0000000000000010#16 := by decide

theorem test_encode_command : encode (.passA dD noJump) = 0b1110110000010000#16 ∧
    encode (.incM ⟨true, false, true⟩ ⟨true, true, true⟩) = 0b1111110111101111#16 := by decide

/-! ### Results: the examples of 41_alu.md R120 to R147 -/

theorem test_example_constants : dAfter 0b1110101010010000#16 0 ∧ dAfter 0b1110111111010000#16 1 ∧
    dAfter 0b1110111010010000#16 0xFFFF#16 := by decide

theorem test_example_registers : dAfter 0b1110001100010000#16 0x0009#16 ∧ dAfter 0b1110110000010000#16 0x0003#16 ∧
    dAfter 0b1110001101010000#16 0xFFF6#16 ∧ dAfter 0b1110110001010000#16 0xFFFC#16 ∧
    dAfter 0b1110001111010000#16 0xFFF7#16 ∧ dAfter 0b1110110011010000#16 0xFFFD#16 ∧
    dAfter 0b1110011111010000#16 0x000A#16 ∧ dAfter 0b1110110111010000#16 0x0004#16 ∧
    dAfter 0b1110001110010000#16 0x0008#16 ∧ dAfter 0b1110110010010000#16 0x0002#16 := by decide

theorem test_example_two_register : dAfter 0b1110000010010000#16 0x000C#16 ∧ dAfter 0b1110010011010000#16 0x0006#16 ∧
    dAfter 0b1110000111010000#16 0xFFFA#16 ∧ dAfter 0b1110000000010000#16 0x0001#16 ∧
    dAfter 0b1110010101010000#16 0x000B#16 := by decide

theorem test_example_memory : dAfter 0b1111110000010000#16 0x0005#16 ∧ dAfter 0b1111110001010000#16 0xFFFA#16 ∧
    dAfter 0b1111110011010000#16 0xFFFB#16 ∧ dAfter 0b1111110111010000#16 0x0006#16 ∧
    dAfter 0b1111110010010000#16 0x0004#16 := by decide

theorem test_example_register_memory : dAfter 0b1111000010010000#16 0x000E#16 ∧ dAfter 0b1111010011010000#16 0x0004#16 ∧
    dAfter 0b1111000111010000#16 0xFFFC#16 ∧ dAfter 0b1111000000010000#16 0x0001#16 ∧
    dAfter 0b1111010101010000#16 0x000D#16 := by decide

/-- 95_test_vectors.md section 4, column (0x0009, 0x0003) of five unnamed codes. -/
theorem test_unnamed_codes : dAfter 0b1110000001010000#16 0xFFFE#16 ∧ dAfter 0b1110000011010000#16 0xFFF3#16 ∧
    dAfter 0b1110010000010000#16 0x0002#16 ∧ dAfter 0b1110010100010000#16 0xFFF4#16 ∧
    dAfter 0b1110111110010000#16 0xFFFE#16 := by decide

/-- 95_test_vectors.md section 3, the wraps: D+1 of 0x7FFF, -D of 0x8000, D+A and A-D of (0x8000, 0xFFFF). -/
theorem test_alu_wraps :
    alu (AluControl.ofBits 0b011111#6) 0x7FFF#16 0x0001#16 = 0x8000#16 ∧
    alu (AluControl.ofBits 0b001111#6) 0x8000#16 0xFFFF#16 = 0x8000#16 ∧
    alu (AluControl.ofBits 0b000010#6) 0x8000#16 0xFFFF#16 = 0x7FFF#16 ∧
    alu (AluControl.ofBits 0b000111#6) 0x8000#16 0xFFFF#16 = 0x7FFF#16 := by decide

/-! ### Destinations (95_test_vectors.md section 5) -/

theorem test_dest_AM_writes_old_A : nextIs (exec (decode 0b1110011111101000#16) base) (fun t =>
    t.regA == 0x000A#16 && t.regD == 0x0009#16 && t.mem.read 3 == 0x000A#16 && t.mem.read 10 == 0 && t.written == [3] &&
      t.pc == 1) := by decide

theorem test_dest_M_zero_is_recorded : nextIs (exec (decode 0b1110101010001000#16) base) (fun t =>
    t.mem == [] && t.written == [3] && t.regA == 3 && t.regD == 9) := by decide

theorem test_dest_AMD : nextIs (exec (decode 0b1110000111111000#16) base) (fun t =>
    t.regA == 0xFFFA#16 && t.regD == 0xFFFA#16 && t.mem == [(3, 0xFFFA#16)] && t.written == [3]) := by decide

/-! ### Jumps (95_test_vectors.md section 6) -/

theorem test_jump_JGT_signed : nextIs (exec (decode 0b1110001100000001#16) (mk 0x8000#16 0x20#16 0 5)) (·.pc == 6) ∧
    nextIs (exec (decode 0b1110001100000001#16) (mk 1 0x20#16 0 5)) (·.pc == 0x20#16) := by decide

theorem test_jump_JLT_after_wrap : nextIs (exec (decode 0b1110011111000100#16) (mk 0x7FFF#16 0x20#16 0 5))
    (·.pc == 0x20#16) := by decide

theorem test_jump_goes_to_old_A : nextIs (exec (decode 0b1111110111101111#16) (mk 0 6 0 5)) (fun t =>
    t.regA == 1 && t.mem.read 6 == 1 && t.pc == 6) := by decide

theorem test_jump_JNE_JLE_JEQ : nextIs (exec (decode 0b1110001100000101#16) (mk 0 0x20#16 0 5)) (·.pc == 6) ∧
    nextIs (exec (decode 0b1110001100000110#16) (mk 0x7FFF#16 0x20#16 0 5)) (·.pc == 6) ∧
    nextIs (exec (decode 0b1111110000000010#16) (mk 0 0x20#16 0 5)) (·.pc == 0x20#16) := by decide

/-! ### The sequencer (95_test_vectors.md sections 2 and 7) -/

/-- The start of section 2 with a given word at PC = 9 and a given budget. -/
def section2 (w : Word) (b : Budget) : State :=
  { regA := 0x1234#16, regD := 0x5678#16, pc := 9, mem := [(0x0100, 0x0042#16)], written := [], budget := b,
    rom := placeWord (List.replicate 20 0) 9 w }

theorem test_step_address : nextIs (step (section2 0b0010101010101010#16 (.limited 10))) (fun t =>
    t.regA == 0x2AAA#16 && t.pc == 10 && t.regD == 0x5678#16 && t.mem == [(0x0100, 0x0042#16)] && t.written == [] &&
      t.budget == .limited 9) := by decide

/-- Q2: with budget 0 no instruction runs. -/
theorem test_step_budget_zero : nextIs (step (section2 0b0010101010101010#16 (.limited 0)))
    (· == section2 0b0010101010101010#16 (.limited 0)) := by decide

/-- Q1: with an empty program no instruction runs. -/
theorem test_step_empty_program : nextIs (step State.reset) (· == State.reset) := by decide

theorem test_step_unlimited : nextIs (step (section2 0 .unlimited)) (·.budget == .unlimited) := by decide

theorem test_reset_runs_a_loaded_word : nextIs (step (State.reset.withFetchWord 16 0b1110111111010000))
    (fun t => t.regD == 1 && t.pc == 1 && t.regA == 0) := by decide

theorem test_reset_memory_canonical : State.reset.mem.wf := by decide

theorem test_memory_write_order : Memory.write (Memory.write (Memory.write [] 7 1) 3 2) 5 4 =
    [(3, 2#16), (5, 4#16), (7, 1#16)] ∧ Memory.write [(3, 2#16), (5, 4#16)] 3 0 = [(5, 4#16)] := by decide

theorem test_output_in_address_order : State.output { base with written := [0, 3], mem := [(3, 5#16)] } =
    [(0, 0#16), (3, 5#16)] := by decide

/-! ### The assembler (95_test_vectors.md S9, S10, T1 to T16) -/

/-- The words of source lines, or the error. -/
def asm (lines : List String) : Except AsmError (List Word) := assemble (lines.map String.toList)

/-- Whether the source gives these words. -/
def asmIs (lines : List String) (ws : List Word) : Bool :=
  match asm lines with
  | .ok us => us == ws
  | .error _ => false

/-- Whether the source gives this error. -/
def asmFails (lines : List String) (e : AsmError) : Bool :=
  match asm lines with
  | .ok _ => false
  | .error d => d == e

theorem test_asm_S9_variables : asmIs ["@i", "@j", "@i", "@k", "@j", "@R3", "@x"] [16, 17, 16, 18, 17, 3, 19] := by decide

theorem test_asm_S10_labels : asmIs ["(START)", "@END", "0;JMP", "// note", "", "(MID)", "D=A", "(END)", "@START", "(TAIL)"]
    [0b0000000000000011#16, 0b1110101010000111#16, 0b1110110000010000#16, 0b0000000000000000#16] := by decide

theorem test_asm_T1_T4 : asmFails ["D=A+D"] .invalidMnemonic ∧ asmFails ["D = A"] .invalidMnemonic ∧
    asmFails ["AMD=D;JXX"] .invalidMnemonic ∧ asmFails ["DA=D"] .invalidMnemonic := by decide

theorem test_asm_T5_T7 : asmFails ["@32768"] .invalidMnemonic ∧ asmFails ["@-1"] .malformedAddressLiteral ∧
    asmFails ["@1x"] .malformedAddressLiteral := by decide

theorem test_asm_T8_T11 : asmFails ["(X)", "@1", "(X)", "@2"] .duplicateLabelDefinition ∧ asmIs ["(X)", "(X)", "@1"] [1] ∧
    asmFails ["@1", "(SP)"] .duplicateLabelDefinition ∧ asmIs ["(SP)", "@1"] [1] := by decide

theorem test_asm_T12_T13 : asmIs ["@007"] [7] ∧ asmIs ["  D=M   // c"] [0b1111110000010000#16] := by decide

theorem test_asm_T14_T16 : asmIs ["@R15", "@SCREEN", "@KBD"] [15, 0x4000#16, 0x6000#16] ∧ asmIs ["@r1"] [16] ∧
    asmIs ["@LOOP", "(LOOP)", "@v"] [1, 16] := by decide

theorem test_wordText_D_equals_A : wordText 0b1110110000010000#16 = "1110110000010000".toList ∧
    parseWord "1110110000010000".toList = some 0b1110110000010000#16 := by decide

/-! ### The launch (70_reset_and_hazards.md R251; 95_test_vectors.md Q3, T6) -/

/-- Launch arguments of a source program. -/
def args (lines : List String) (b : BudgetArg) : LaunchArgs :=
  { lines := lines.map String.toList, isSourceForm := true, cycleBudget := b, initA := 11, initD := 22 }

theorem test_launch_source : nextIs (launch (args ["@1", "M=1"] (.int 1)))
    (· == State.start 11 22 (.limited 1) [1, 0b1110111111001000#16]) := by decide

theorem test_launch_refusals : refusedIs (launch (args ["@1"] (.int (-3)))) .invalidBudget ∧
    refusedIs (launch (args ["@-1"] .sentinel)) .invalidMnemonic ∧
    refusedIs (launch { args ["0101"] .sentinel with isSourceForm := false }) .malformedBinaryLine := by decide

/-! ### Witnesses: states and operands that meet the statements' hypotheses together -/

/-- DecodeOfEncodeIsTheInstruction, and the boundary of C-unnamed. -/
theorem witness_wellFormed : ∃ i : Instr, i.wellFormed = true ∧ decode (encode i) = i :=
  ⟨.unnamed .mem ⟨true, true, true, true, true, true⟩ dD noJump, by decide⟩

/-- RowRule, UnnamedCodesExecuteByTheAluRule, MemWriteThenMemRead: a canonical memory with a word in it. -/
theorem witness_memory_wf : base.mem.wf ∧ base.mem ≠ [] := by decide

/-- CommandReadsAtMostTheWordAtA: the word D=M, and a memory that agrees at A and differs elsewhere. -/
theorem witness_memory_agrees_at_A : (0b1111110000010000#16).getLsbD 15 = true ∧ (0b1111110000010000#16).getLsbD 12 = true ∧
    Memory.read [(3, 5#16), (4, 1#16)] base.regA.toNat = base.mem.read base.regA.toNat ∧
    Memory.read [(3, 5#16), (4, 1#16)] 4 ≠ base.mem.read 4 := by decide

/-- CommandReadsAtMostTheWordAtA, the stored word: M=M+1, and canonical memories that agree at A and differ
elsewhere. -/
theorem witness_stored_word : (0b1111110111001000#16).getLsbD 15 = true ∧ (0b1111110111001000#16).getLsbD 3 = true ∧
    base.mem.wf ∧ Memory.wf [(3, 5#16), (4, 1#16)] ∧
    Memory.read [(3, 5#16), (4, 1#16)] base.regA.toNat = base.mem.read base.regA.toNat ∧
    Memory.read [(3, 5#16), (4, 1#16)] 4 ≠ base.mem.read 4 := by decide

/-- DestinationCodesSelectTheReceivers: a command word for each of the eight codes, from a canonical memory. -/
theorem witness_destination_codes : base.mem.wf ∧ ∀ k : BitVec 3,
    (0b1110011111#10 ++ k ++ 0#3).getLsbD 15 = true ∧ (0b1110011111#10 ++ k ++ 0#3).extractLsb' 3 3 = k := by decide

/-- EveryUseOfAIsItsOldValue: AM=M+1;JMP, with a result that is not the old A and a jump that is taken. -/
theorem witness_am_jump : (0b1111110111101111#16).getLsbD 15 = true ∧ (0b1111110111101111#16).getLsbD 5 = true ∧
    (0b1111110111101111#16).getLsbD 3 = true ∧ base.mem.wf ∧
    Claims.resultOf 0b1111110111101111#16 base ≠ base.regA ∧
    Claims.condBits ((0b1111110111101111#16).extractLsb' 0 3) (Claims.resultOf 0b1111110111101111#16 base) = true := by decide

/-- JumpCodesTestSignAndZero: a destination without A, and a state with a given D. -/
theorem witness_jump_state : dD.dA = false ∧ base.regD = 0x0009#16 := by decide

/-- CommandWordsFollowTheirBits: a command word. -/
theorem witness_command_word : (0b1000110000010000#16).getLsbD 15 = true := by decide

/-- RegisterFileIsReachedThroughM: R15 with A = 15. -/
theorem witness_register_file : (mk 1 15 7 0).mem.wf ∧ (mk 1 15 7 0).regA = BitVec.ofNat 16 ((15 : Fin 16) : Nat) := by
  decide

/-- InstructionsChangeOnlyTheirDestinations: a command with no destination. -/
theorem witness_no_destination : (Instr.incD ⟨false, false, false⟩ noJump).isCommand = true ∧
    (Instr.incD ⟨false, false, false⟩ noJump).dest = ⟨false, false, false⟩ := by decide

/-- WrittenBudgetAndPcAreNotObserved: two states that differ in what is not observed. -/
theorem witness_unobserved_parts : base.regA = { base with written := [9], budget := .unlimited, pc := 77 }.regA ∧
    base ≠ { base with written := [9], budget := .unlimited, pc := 77 } := by decide

/-- StepRunsTheDecodedInstruction, StepRunsTheEncodedInstruction, PcNeverWraps, EachInstructionSpendsOneBudgetUnit: a
running state that meets the invariant of canonical forms, with an encoded instruction at PC. -/
theorem witness_running : (section2 (encode (.passA dD noJump)) (.limited 10)).running ∧
    (section2 (encode (.passA dD noJump)) (.limited 10)).rom[(section2 (encode (.passA dD noJump)) (.limited 10)).pc.toNat]? =
      some (encode (.passA dD noJump)) ∧ (section2 0 .unlimited).running := by decide

/-- PcNeverWraps, EveryStepKeepsTheInvariant, OutputIsTheWrittenMemoryMap: a running state with stored words that meets the
invariant, and its step. -/
theorem witness_invariant : State.Inv { base with written := [0, 3], rom := [0b1110011111101000#16] } ∧
    State.running { base with written := [0, 3], rom := [0b1110011111101000#16] } ∧
    nextIs (step { base with written := [0, 3], rom := [0b1110011111101000#16] }) (·.regA == 10) ∧
    Memory.read base.mem 3 ≠ 0 := by decide

/-- HaltedStatesAreFinal, by each of its two conditions alone. -/
theorem witness_halted : (section2 0 (.limited 0)).halted = true ∧ (section2 0 (.limited 0)).pc.toNat < 20 ∧
    State.halted { section2 0 .unlimited with pc := 20 } = true ∧ State.halted { section2 0 .unlimited with pc := 19 } = false := by
  decide

/-- FiniteBudgetHaltsWithinBudgetSteps: a running state with budget 1. -/
theorem witness_budget_one : (section2 0 (.limited 1)).budget = .limited 1 ∧ (section2 0 (.limited 1)).running := by decide

/-- RunsEndInOneState: a run that ends, after one step. -/
theorem witness_ends : EndsIn (section2 0 (.limited 1)) { section2 0 (.limited 0) with regA := 0, pc := 10 } :=
  ⟨1, rfl, by decide⟩

/-- StartStatesMeetTheInvariant, BinaryProgramsLaunch: a program of one word. -/
theorem witness_program_length : [(0 : Word)].length ≤ 32768 := by decide

/-- The rows of AM=M+1;JMP and of `0`, with the words of 95_test_vectors.md and 30_encoding.md R76. -/
def amRows : Claims.CommandRows := ⟨("AM=".toList, 0b101#3), ("M+1".toList, 0b1110111#7), (";JMP".toList, 0b111#3)⟩
def zeroRows : Claims.CommandRows := ⟨("".toList, 0b000#3), ("0".toList, 0b0101010#7), ("".toList, 0b000#3)⟩

/-- TableCommandsAssemble: a command with all three fragments and one with the computation alone. -/
theorem witness_table_commands : ∀ r ∈ [amRows, zeroRows], r.inTables := by
  intro r hr
  fin_cases hr <;> exact ⟨by decide, by decide, by decide⟩

theorem test_table_command_texts : amRows.text = "AM=M+1;JMP".toList ∧ amRows.word = 0b1111110111101111#16 ∧
    zeroRows.text = "0".toList ∧ zeroRows.word = 0b1110101010000000#16 := by decide

/-- OtherCommandsAreInvalidMnemonics: T4 of 95_test_vectors.md, a destination spelled in another order. -/
theorem witness_other_command : classify "DA=D".toList = .command "DA=D".toList ∧
    ∀ r : Claims.CommandRows, r.inTables → "DA=D".toList ≠ r.text := by
  refine ⟨by decide, fun r ⟨hd, hc, hj⟩ => ?_⟩
  have h : ∀ d ∈ Claims.destRows, ∀ c ∈ Claims.compRows, ∀ j ∈ Claims.jumpRows, "DA=D".toList ≠ d.1 ++ c.1 ++ j.1 := by
    decide
  exact h _ hd _ hc _ hj

/-- AssembledWordsAreNamedInstructions: a source that assembles to words of both classes. -/
theorem witness_assembles : assemble ["@2".toList, "D=A".toList] = .ok [2, 0b1110110000010000#16] := by decide

/-- SymbolsAreNeverReassigned: a bound name, a definition and an allocation that succeed, two unbound names. -/
theorem witness_symbols : SymbolTable.predefined.lookup "SP".toList = some 0 ∧
    SymbolTable.predefined.define "SP".toList 0 = .ok SymbolTable.predefined ∧
    (SymbolTable.predefined.allocate "i".toList).map Prod.fst = .ok 16 ∧
    SymbolTable.predefined.lookup "i".toList = none ∧ SymbolTable.predefined.lookup "j".toList = none := by decide

/-- BadLaunchesAreRefused, the malformed line, each assembler error and the negative budget. -/
theorem witness_bad_launch : parseWord "01010".toList = none ∧
    asm ["D=A+D"] = .error .invalidMnemonic ∧ asm ["@1x"] = .error .malformedAddressLiteral ∧
    asm ["(X)", "@1", "(X)", "@2"] = .error .duplicateLabelDefinition ∧
    asm ["(X"] = .error .malformedLabelDeclaration ∧
    readProgram true ["@1".toList] = .ok [1] := by decide

/-- BadLaunchesAreRefused, the long program: more than 32768 words read from their own text. -/
theorem witness_long_program : ∃ lines ws, readProgram false lines = .ok ws ∧ 32768 < ws.length := by
  have h : ∀ n, readProgram false (List.replicate n (wordText 0)) = .ok (List.replicate n 0) := by
    intro n
    show parseProgram _ = _
    induction n with
    | zero => rfl
    | succ n ih =>
      have h0 : parseWord (wordText 0) = some 0 := by decide
      rw [List.replicate_succ, parseProgram, h0, ih]
      rfl
  have hl : ∃ n, 32768 < n := ⟨32769, by omega⟩
  obtain ⟨n, hn⟩ := hl
  exact ⟨_, _, h n, by rwa [List.length_replicate]⟩

/-- AcceptedLaunchesMeetTheInvariant: an accepted launch. -/
theorem witness_accepted_launch : ∃ s, launch (args ["@1", "M=1"] (.int 1)) = .next s := ⟨_, rfl⟩

end Sys2Proof.Tests
end

section
/-! PROOFS, family 10_state: the invariant. Its rule per state operation, then exec and step. -/

namespace Sys2Proof.Machine

/-- The invariant speaks of memory, WRITTEN and the program alone. -/
theorem State.Inv.of_same {s t : State} (hs : s.Inv) (hmem : t.mem = s.mem) (hwritten : t.written = s.written)
    (hrom : t.rom = s.rom) : t.Inv := by
  simpa only [State.Inv, State.accounted, hmem, hwritten, hrom] using hs

/-- A store keeps the invariant: the one cell it may add stands at the address it records (20_memory.md R42). -/
theorem memWrite_keeps_inv {s : State} (hs : s.Inv) (a v : Word) : (s.memWrite a v).Inv := by
  obtain ⟨hmem, hwritten, hacc, hrom⟩ := hs
  refine ⟨Memory.write_wf hmem a.isLt, WrittenSet.insert_wf hwritten a.isLt, fun c hc => ?_, hrom⟩
  rw [State.memWrite_written, WrittenSet.mem_insert]
  rcases Memory.mem_write hc with hold | ⟨rfl, -⟩
  · exact .inr (hacc c hold)
  · exact .inl rfl

/-- As to the invariant, writeback is a store at A when dM is set, and no change when it is not. -/
theorem writeback_keeps_inv {s : State} (hs : s.Inv) (d : Dest) (j : Jump) (out : Word) :
    (writeback d j out s).Inv := by
  cases hM : d.dM
  · exact hs.of_same (by simp [hM]) (by simp [hM]) (by simp)
  · exact (memWrite_keeps_inv hs s.regA out).of_same (by simp [hM]) (by simp [hM]) (by simp)

/-- Every instruction keeps the invariant. -/
theorem exec_keeps_inv {i : Instr} {s t : State} (hs : s.Inv) (h : exec i s = .next t) : t.Inv := by
  obtain ⟨v, -, rfl⟩ | ⟨-, out, rfl⟩ := exec_next_cases h
  · exact hs.of_same rfl rfl rfl
  · exact writeback_keeps_inv hs i.dest i.jump out

/-- Every step keeps the invariant; the budget it spends is no part of it. -/
theorem step_keeps_inv {s t : State} (hs : s.Inv) (h : step s = .next t) : t.Inv := by
  obtain ⟨-, rfl⟩ | ⟨-, u, hu, rfl⟩ := step_next_cases h
  · exact hs
  · exact (exec_keeps_inv hs hu).of_same rfl rfl rfl

/-- Settles O38: each state operation of a step keeps the invariant, the store being the one that touches it. -/
theorem everyStepKeepsTheInvariant : Obligations.EveryStepKeepsTheInvariant :=
  fun _ _ => step_keeps_inv

/-- Settles O34: a running core has PC below ROM_LEN, which the invariant bounds by 32768. -/
theorem pcNeverWraps : Obligations.PcNeverWraps := by
  rintro s ⟨-, -, -, hrom⟩ hrun
  have hpc : s.pc.toNat < s.rom.length := ((State.not_halted_iff s).1 hrun).1
  have hbound : s.pc.toNat < 32768 := hpc.trans_le hrom
  bv_omega

end Sys2Proof.Machine
end

section
/-! PROOFS, family 10_state: what an instruction may change (its frame), and what it may read. -/

namespace Sys2Proof.Machine

/-! ### The frame of writeback and of every instruction -/

/-- Writeback changes a memory word only with dM and only at A (20_memory.md R53). -/
theorem writeback_mem_read_frame {d : Dest} {s : State} {a : Nat} (j : Jump) (out : Word)
    (h : d.dM = false ∨ a ≠ s.regA.toNat) : (writeback d j out s).mem.read a = s.mem.read a := by
  rw [writeback_mem]
  split
  next hM => exact Memory.read_write_other _ _ _ _ (h.resolve_left (by simp [hM]))
  next => rfl

/-- Writeback records A with dM, and nothing else. -/
theorem mem_writeback_written {d : Dest} {j : Jump} {out : Word} {s : State} {a : Nat} :
    a ∈ (writeback d j out s).written ↔ a ∈ s.written ∨ d.dM = true ∧ a = s.regA.toNat := by
  cases hM : d.dM
  · simp [hM]
  · simp [hM, or_comm]

/-- Only `@value` and a command with dA change A (10_state.md R21). -/
theorem exec_next_regA {i : Instr} {s t : State} (h : exec i s = .next t) (hi : i.isCommand = true)
    (hA : i.dest.dA = false) : t.regA = s.regA := by
  obtain ⟨v, rfl, -⟩ | ⟨-, out, rfl⟩ := exec_next_cases h
  · cases hi
  · simp [hA]

/-- Only a command with dD changes D (10_state.md R22). -/
theorem exec_next_regD {i : Instr} {s t : State} (h : exec i s = .next t) (hD : i.dest.dD = false) :
    t.regD = s.regD := by
  obtain ⟨v, -, rfl⟩ | ⟨-, out, rfl⟩ := exec_next_cases h
  · rfl
  · simp [hD]

/-- Only a command with dM changes memory, and only at the old A (20_memory.md R53). -/
theorem exec_next_mem_read {i : Instr} {s t : State} {a : Nat} (h : exec i s = .next t)
    (ha : i.dest.dM = false ∨ a ≠ s.regA.toNat) : t.mem.read a = s.mem.read a := by
  obtain ⟨v, -, rfl⟩ | ⟨-, out, rfl⟩ := exec_next_cases h
  · rfl
  · exact writeback_mem_read_frame i.jump out ha

/-- WRITTEN gains the old A with dM, and nothing else (20_memory.md R42). -/
theorem exec_next_mem_written {i : Instr} {s t : State} (h : exec i s = .next t) (a : Nat) :
    a ∈ t.written ↔ a ∈ s.written ∨ i.dest.dM = true ∧ a = s.regA.toNat := by
  obtain ⟨v, rfl, rfl⟩ | ⟨-, out, rfl⟩ := exec_next_cases h
  · simp [Instr.dest]
  · exact mem_writeback_written

/-- Every instruction completes (30_encoding.md R69, 60_exceptions.md R230). -/
theorem exec_total (i : Instr) (s : State) : ∃ t, exec i s = .next t := by
  obtain ⟨v, -, h⟩ | ⟨-, y, c, h⟩ := exec_cases i s
  · exact ⟨_, h⟩
  · exact ⟨_, h s⟩

/-- Settles O23, field by field of the state. -/
theorem instructionsChangeOnlyTheirDestinations : Obligations.InstructionsChangeOnlyTheirDestinations := by
  intro i s
  obtain ⟨t, h⟩ := exec_total i s
  exact ⟨t, h, exec_next_regA h, exec_next_regD h, fun _ => exec_next_mem_read h, exec_next_mem_written h,
    exec_next_rom_budget h⟩

/-! ### What a step does to WRITTEN -/

/-- An instruction records every word it changes: by its frame such a word stands at the old A, with dM. -/
theorem exec_next_changed_mem_written {i : Instr} {s t : State} {a : Nat} (h : exec i s = .next t)
    (ha : t.mem.read a ≠ s.mem.read a) : a ∈ t.written := by
  by_contra hnot
  refine ha (exec_next_mem_read h ?_)
  rw [exec_next_mem_written h] at hnot
  cases hM : i.dest.dM
  · exact .inl rfl
  · exact .inr fun haA => hnot (.inr ⟨hM, haA⟩)

/-- Settles O40: a halted core changes nothing, and a running one does to memory and WRITTEN what its instruction
does. -/
theorem everyChangedWordIsRecordedInWritten : Obligations.EveryChangedWordIsRecordedInWritten := by
  intro s
  obtain ⟨-, hs⟩ | ⟨-, t, ht, hs⟩ := step_cases s
  · exact ⟨s, hs, fun _ => id, fun _ => .inl, fun _ hne => absurd rfl hne⟩
  · have hchanged : ∀ a, t.mem.read a ≠ s.mem.read a → a ∈ t.written :=
      fun _ => exec_next_changed_mem_written ht
    exact ⟨_, hs, fun a ha => (exec_next_mem_written ht a).2 (.inl ha),
      fun a ha => ((exec_next_mem_written ht a).1 ha).imp_right And.right, hchanged⟩

/-! ### Noninterference -/

/-- The y operand is a function of A and memory (42_command.md R161). -/
theorem operandY_congr (y : YSource) {s u : State} (hA : s.regA = u.regA) (hmem : s.mem = u.mem) :
    operandY y s = operandY y u := by
  cases y with
  | regA => exact hA
  | mem => simp [operandY, State.memRead, hA, hmem]

/-- Settles O24: the ALU's operands are functions of A, D and memory, so both runs write back one result. -/
theorem writtenBudgetAndPcAreNotObserved : Obligations.WrittenBudgetAndPcAreNotObserved := by
  intro i s u hA hD hmem
  obtain ⟨v, rfl, hs⟩ | ⟨-, y, c, h⟩ := exec_cases i s
  · exact ⟨_, _, hs, rfl, rfl, hD, hmem, congrArg (· + 1)⟩
  · refine ⟨_, _, h s, h u, ?_⟩
    have hout : alu c s.regD (operandY y s) = alu c u.regD (operandY y u) := by
      rw [hD, operandY_congr y hA hmem]
    rw [command_eq, command_eq, hout]
    simp +contextual [hA, hD, hmem]

end Sys2Proof.Machine
end

section
/-! PROOFS, family 10_state: the register file R0..R15 in data memory (10_state.md R27). -/

namespace Sys2Proof.Machine

/-- The control pattern of `M` passes the y operand (41_alu.md R138). -/
theorem alu_passY (x y : Word) : alu (AluControl.ofBits 0b110000#6) x y = y := by
  show ~~~0#16 &&& y = y
  rw [BitVec.not_zero, BitVec.allOnes_and]

/-- The control pattern of `D` passes the x operand (41_alu.md R123). -/
theorem alu_passX (x y : Word) : alu (AluControl.ofBits 0b001100#6) x y = x := by
  show x &&& ~~~0#16 = x
  rw [BitVec.not_zero, BitVec.and_allOnes]

/-- `comp = M` writes back the memory word at A (41_alu.md R138). -/
theorem exec_passM (d : Dest) (j : Jump) (s : State) :
    exec (.passM d j) s = .next (writeback d j (s.memRead s.regA) s) := by
  show Host.Outcome.next (writeback d j (alu _ s.regD (s.memRead s.regA)) s) = _
  rw [alu_passY]

/-- `comp = D` writes back D (41_alu.md R123). -/
theorem exec_passD (d : Dest) (j : Jump) (s : State) : exec (.passD d j) s = .next (writeback d j s.regD s) := by
  show Host.Outcome.next (writeback d j (alu _ s.regD s.regA) s) = _
  rw [alu_passX]

/-- The address of Rk is k. -/
theorem toNat_fileRegister_address (k : Fin 16) : (BitVec.ofNat 16 k).toNat = k := by
  simp only [BitVec.toNat_ofNat]
  omega

/-- Rk is the data-memory word at k. -/
theorem State.fileRegister_eq (s : State) (k : Fin 16) : s.fileRegister k = s.mem.read k := by
  rw [State.fileRegister, State.memRead, toNat_fileRegister_address]

/-- Settles O21: with A = k the store and the load of M go to the word at k, and distinct file registers have distinct
addresses. -/
theorem registerFileIsReachedThroughM : Obligations.RegisterFileIsReachedThroughM := by
  intro s k hwf hA
  have hk : s.regA.toNat = k := by rw [hA, toNat_fileRegister_address]
  refine ⟨⟨_, exec_passM _ _ s, ?_, fun j => ?_⟩, ⟨_, exec_passD _ _ s, ?_, fun j hj => ?_, ?_⟩⟩
  · simp [State.fileRegister, hA]
  · simp [State.fileRegister_eq]
  · simp [State.fileRegister_eq, hk, Memory.read_write_same _ _ _ hwf]
  · rw [State.fileRegister_eq, State.fileRegister_eq]
    exact writeback_mem_read_frame _ _ (.inr fun hjk => hj (Fin.ext (hjk.trans hk)))
  · exact mem_writeback_written.2 (.inr ⟨rfl, hk.symm⟩)

end Sys2Proof.Machine
end

section
/-! PROOFS, family 20_memory: reads after a store and at the start of a run (20_memory.md R41, R42), and the program,
which no step changes (R51). -/

namespace Sys2Proof.Machine

/-! ### Reads of the state's memory -/

/-- A store is seen by the next read of its address (20_memory.md R42); a canonical memory lists an address once. -/
theorem State.memRead_memWrite_same {s : State} (hwf : s.mem.wf) (a v : Word) : (s.memWrite a v).memRead a = v :=
  Memory.read_write_same s.mem a.toNat v hwf

/-- A store changes no other address (20_memory.md R42): distinct words are distinct addresses. -/
theorem State.memRead_memWrite_other (s : State) {a b : Word} (v : Word) (hne : b ≠ a) :
    (s.memWrite a v).memRead b = s.memRead b :=
  Memory.read_write_other s.mem a.toNat b.toNat v fun h => hne (BitVec.eq_of_toNat_eq h)

/-- At the start of a run every address reads 0 (20_memory.md R41). -/
@[simp] theorem State.memRead_start (initA initD : Word) (b : Budget) (rom : List Word) (a : Word) :
    (State.start initA initD b rom).memRead a = 0 := rfl

/-- Settles O35: the two reads after a store, the one address it records, and the empty memory of a start state. -/
theorem memWriteThenMemRead : Obligations.MemWriteThenMemRead :=
  ⟨fun s a v hwf =>
    ⟨s.memRead_memWrite_same hwf a v, fun _ => s.memRead_memWrite_other v, fun _ => WrittenSet.mem_insert,
      s.memWrite_regA a v, s.memWrite_regD a v, s.memWrite_pc a v⟩,
   State.memRead_start⟩

/-! ### The program -/

/-- A step keeps the program (20_memory.md R51): its instruction does, and spending the budget does. -/
theorem step_next_rom {s t : State} (h : step s = .next t) : t.rom = s.rom := by
  obtain ⟨-, rfl⟩ | ⟨-, u, hu, rfl⟩ := step_next_cases h
  · rfl
  · exact (exec_next_rom_budget hu).1

/-- Settles O39: a step always answers a next state, and that state has the same program. -/
theorem noStepChangesTheProgram : Obligations.NoStepChangesTheProgram := by
  intro s
  obtain ⟨t, ht⟩ := step_total s
  exact ⟨t, ht, step_next_rom ht⟩

end Sys2Proof.Machine
end

section
/-! PROOFS, family 30_encoding: the fields of a word, the table of computation codes, and decode against encode
(30_encoding.md R61 to R73, R91). -/

namespace Sys2Proof

/-! ### Fields and their bits -/

@[simp] theorem AluControl.ofBits_toBits (c : AluControl) : AluControl.ofBits c.toBits = c := by
  obtain ⟨zx, nx, zy, ny, f, no⟩ := c
  decide +revert

theorem AluControl.toBits_ofBits (c : BitVec 6) : (AluControl.ofBits c).toBits = c := by decide +revert

@[simp] theorem Dest.ofBits_toBits (d : Dest) : Dest.ofBits d.toBits = d := by
  obtain ⟨dA, dD, dM⟩ := d
  decide +revert

@[simp] theorem Dest.toBits_ofBits (d : BitVec 3) : (Dest.ofBits d).toBits = d := by decide +revert

@[simp] theorem Jump.ofBits_toBits (j : Jump) : Jump.ofBits j.toBits = j := by
  obtain ⟨jLT, jEQ, jGT⟩ := j
  decide +revert

@[simp] theorem Jump.toBits_ofBits (j : BitVec 3) : (Jump.ofBits j).toBits = j := by decide +revert

/-- The operand select and control pattern that a computation code stands for (30_encoding.md R63, R65). -/
def codeFields (code : BitVec 7) : YSource × AluControl :=
  (YSource.ofBit (code.getLsbD 6), AluControl.ofBits (code.extractLsb' 0 6))

/-- The computation code that the encoder writes for an operand select and a control pattern. -/
def fieldsCode (y : YSource) (c : AluControl) : BitVec 7 := BitVec.ofBool y.toBit ++ c.toBits

theorem codeFields_fieldsCode (y : YSource) (c : AluControl) : codeFields (fieldsCode y c) = (y, c) := by
  have hy : (fieldsCode y c).getLsbD 6 = y.toBit := by
    rw [fieldsCode, BitVec.getLsbD_append]
    cases y <;> rfl
  have hc : (fieldsCode y c).extractLsb' 0 6 = c.toBits := BitVec.extractLsb'_append_eq_right
  rw [codeFields, hy, hc, AluControl.ofBits_toBits]
  cases y <;> rfl

theorem fieldsCode_codeFields (code : BitVec 7) : fieldsCode (codeFields code).1 (codeFields code).2 = code := by
  have hy : BitVec.ofBool (YSource.ofBit (code.getLsbD 6)).toBit = code.extractLsb' 6 1 := by
    rw [BitVec.getLsbD_eq_extractLsb']
    generalize code.extractLsb' 6 1 = a
    decide +revert
  rw [fieldsCode, codeFields, hy, AluControl.toBits_ofBits]
  exact BitVec.extractLsb'_append_extractLsb'

theorem codeFields_injective : Function.Injective codeFields := by
  intro a b h
  rw [← fieldsCode_codeFields a, h, fieldsCode_codeFields]

/-! ### Lookup in a table -/

/-- In a table with distinct keys, lookup finds exactly the listed entries. -/
theorem lookup_eq_some_iff_mem {α β : Type} [BEq α] [LawfulBEq α] {l : List (α × β)} (hl : (l.map Prod.fst).Nodup) {k : α}
    {v : β} : l.lookup k = some v ↔ (k, v) ∈ l := by
  induction l with
  | nil => simp
  | cons p l ih =>
    obtain ⟨k', v'⟩ := p
    obtain ⟨hnot, htail⟩ := List.nodup_cons.1 hl
    by_cases hk : k = k'
    · have hmem : (k', v) ∉ l := fun h => hnot (List.mem_map.2 ⟨_, h, rfl⟩)
      simp [hk, hmem, eq_comm]
    · have hb : (k == k') = false := beq_false_of_ne hk
      simp [List.lookup_cons, hk, hb, ih htail]

/-- A lookup fails exactly for the keys that the table does not list. -/
theorem lookup_eq_none_iff_not_mem {α β : Type} [BEq α] [LawfulBEq α] {l : List (α × β)} {k : α} :
    l.lookup k = none ↔ k ∉ l.map Prod.fst := by
  rw [List.lookup_eq_none_iff, List.mem_map]
  simp only [bne_iff_ne]
  exact ⟨fun h ⟨p, hp, hk⟩ => h p hp hk.symm, fun h p hp hk => h ⟨p, hp, hk.symm⟩⟩

/-! ### The table of computation codes (30_encoding.md R73) -/

/-- Well-formedness and the decoder name the same 28 codes. -/
theorem namedCodes_eq : namedCodes = (namedRows.map Prod.fst).map codeFields := by decide

theorem codeFields_mem_namedCodes {code : BitVec 7} :
    codeFields code ∈ namedCodes ↔ code ∈ namedRows.map Prod.fst := by
  rw [namedCodes_eq, List.mem_map_of_injective codeFields_injective]

/-- What the decoder makes of a code: its row of the table, or for a code without a row `C-unnamed` with the code's
fields (41_alu.md R150). -/
theorem decodeCommand_cases (code : BitVec 7) :
    (∃ mk, (code, mk) ∈ namedRows ∧ ∀ d j, decodeCommand code d j = mk d j) ∨
    (codeFields code ∉ namedCodes ∧
      ∀ d j, decodeCommand code d j = .unnamed (codeFields code).1 (codeFields code).2 d j) := by
  cases h : namedRows.lookup code with
  | some mk =>
    have hnodup : (namedRows.map Prod.fst).Nodup := by decide
    exact .inl ⟨mk, (lookup_eq_some_iff_mem hnodup).1 h, fun d j => by rw [decodeCommand, h]⟩
  | none =>
    have hnot : codeFields code ∉ namedCodes := by
      rwa [codeFields_mem_namedCodes, ← lookup_eq_none_iff_not_mem]
    exact .inr ⟨hnot, fun d j => by rw [decodeCommand, h]; rfl⟩

/-- A code without a row decodes to `C-unnamed` with the fields it was made of. -/
theorem decodeCommand_fieldsCode {y : YSource} {c : AluControl} (h : (y, c) ∉ namedCodes) (d : Dest) (j : Jump) :
    decodeCommand (fieldsCode y c) d j = .unnamed y c d j := by
  rw [← codeFields_fieldsCode y c, codeFields_mem_namedCodes] at h
  obtain ⟨mk, hmem, -⟩ | ⟨-, hdec⟩ := decodeCommand_cases (fieldsCode y c)
  · exact absurd (List.mem_map_of_mem hmem) h
  · rw [hdec, codeFields_fieldsCode]

theorem encode_namedRow : ∀ row ∈ namedRows, ∀ d j, encode (row.2 d j) = commandWord row.1 d j := by
  simp [namedRows, encode]

theorem wellFormed_namedRow : ∀ row ∈ namedRows, ∀ d j, (row.2 d j).wellFormed = true := by
  simp [namedRows, Instr.wellFormed]

/-- The encoder writes the code that was decoded. -/
theorem encode_decodeCommand (code : BitVec 7) (d : Dest) (j : Jump) :
    encode (decodeCommand code d j) = commandWord code d j := by
  obtain ⟨mk, hmem, h⟩ | ⟨-, h⟩ := decodeCommand_cases code
  · rw [h, encode_namedRow _ hmem]
  · rw [h]
    exact congrArg (commandWord · d j) (fieldsCode_codeFields code)

theorem wellFormed_decodeCommand (code : BitVec 7) (d : Dest) (j : Jump) :
    (decodeCommand code d j).wellFormed = true := by
  obtain ⟨mk, hmem, h⟩ | ⟨hnot, h⟩ := decodeCommand_cases code
  · rw [h, wellFormed_namedRow _ hmem]
  · simpa [h, Instr.wellFormed] using hnot

/-! ### Words -/

/-- The decoder reads back the fields of a command word. -/
theorem decode_commandWord (code : BitVec 7) (d : Dest) (j : Jump) :
    decode (commandWord code d j) = decodeCommand code d j := by
  have hcode : (commandWord code d j).extractLsb' 6 7 = code := by
    rw [commandWord, BitVec.extractLsb'_append_eq_of_le (by decide), BitVec.extractLsb'_append_eq_of_le (by decide)]
    exact BitVec.extractLsb'_append_eq_right
  have hdest : (commandWord code d j).extractLsb' 3 3 = d.toBits := by
    rw [commandWord, BitVec.extractLsb'_append_eq_of_le (by decide)]
    exact BitVec.extractLsb'_append_eq_right
  have hjump : (commandWord code d j).extractLsb' 0 3 = j.toBits := BitVec.extractLsb'_append_eq_right
  rw [decode, if_pos (Laws.commandWord_bit15 code d j), hcode, hdest, hjump, Dest.ofBits_toBits, Jump.ofBits_toBits]

/-- The decoder reads back the literal of an address word (30_encoding.md R62). -/
theorem decode_atValueWord (v : BitVec 15) : decode (0b0#1 ++ v) = .atValue v := by
  have h15 : (0b0#1 ++ v).getLsbD 15 = false := Laws.EncodeClass.atValue v
  have hv : (0b0#1 ++ v).extractLsb' 0 15 = v := BitVec.extractLsb'_append_eq_right
  simp only [decode, h15, hv, Bool.false_eq_true, if_false]

/-- Every well-formed instruction survives encoding: a named command by its code's row (the last case), an unnamed one
because its code has no row. -/
theorem decode_encode {i : Instr} (h : i.wellFormed = true) : decode (encode i) = i := by
  cases i with
  | atValue v => exact decode_atValueWord v
  | unnamed y c d j =>
    have hc : (y, c) ∉ namedCodes := by simpa [Instr.wellFormed] using h
    exact (decode_commandWord _ d j).trans (decodeCommand_fieldsCode hc d j)
  | _ d j => exact decode_commandWord _ d j

/-- Settles O2, by the constructor of the instruction (`decode_encode`). -/
theorem decodeOfEncodeIsTheInstruction : Obligations.DecodeOfEncodeIsTheInstruction :=
  fun _ => decode_encode

/-- The decoder by the class of the word (30_encoding.md R61). -/
theorem decode_cases (w : Word) :
    (w.getLsbD 15 = false ∧ decode w = .atValue (w.extractLsb' 0 15)) ∨
    (w.getLsbD 15 = true ∧ decode w =
      decodeCommand (w.extractLsb' 6 7) (Dest.ofBits (w.extractLsb' 3 3)) (Jump.ofBits (w.extractLsb' 0 3))) := by
  cases h : w.getLsbD 15
  · exact .inl ⟨rfl, if_neg (by simp only [h, Bool.false_eq_true, not_false_iff])⟩
  · exact .inr ⟨rfl, if_pos h⟩

/-- Settles O3, by the class of the word. -/
theorem everyWordDecodesWellFormed : Obligations.EveryWordDecodesWellFormed := by
  intro w
  obtain ⟨-, h⟩ | ⟨-, h⟩ := decode_cases w
  · rw [h, Instr.wellFormed]
  · rw [h, wellFormed_decodeCommand]

/-- After `111`, the fields of a command word are its other 13 bits (30_encoding.md R63, R91). -/
theorem append_commandFields {w : Word} (h : w.getLsbD 15 = true) :
    0b111#3 ++ w.extractLsb' 6 7 ++ w.extractLsb' 3 3 ++ w.extractLsb' 0 3 = w ||| 0x6000#16 := by
  refine BitVec.eq_of_getLsbD_eq fun i hi => ?_
  rw [BitVec.getLsbD_append, BitVec.getLsbD_append, BitVec.getLsbD_append]
  interval_cases i <;> simp [-BitVec.getLsbD_eq_getElem, h]

theorem zero_append_literal {w : Word} (h : w.getLsbD 15 = false) : 0b0#1 ++ w.extractLsb' 0 15 = w := by
  have h15 : w.extractLsb' 15 1 = 0b0#1 := by
    rw [BitVec.getLsbD_eq_extractLsb'] at h
    generalize w.extractLsb' 15 1 = a at h
    decide +revert
  rw [← h15]
  exact BitVec.extractLsb'_append_extractLsb'

/-- Settles O4, by the class of the word: an address word is rebuilt, a command word gets its `111`. -/
theorem encodeOfDecodeSetsThePrefix : Obligations.EncodeOfDecodeSetsThePrefix := by
  intro w
  obtain ⟨h15, h⟩ | ⟨h15, h⟩ := decode_cases w
  · rw [h, if_neg (by simp only [h15, Bool.false_eq_true, not_false_iff])]
    exact zero_append_literal h15
  · rw [h, encode_decodeCommand, commandWord, Dest.toBits_ofBits, Jump.toBits_ofBits, if_pos h15]
    exact append_commandFields h15

/-- Of a command word the decoder reads bits 12:0 (30_encoding.md R68). -/
theorem decode_congr_of_command {w u : Word} (hw : w.getLsbD 15 = true) (hu : u.getLsbD 15 = true)
    (hlow : w.extractLsb' 0 13 = u.extractLsb' 0 13) : decode w = decode u := by
  have hfield {start len : Nat} (h : start + len ≤ 13) : w.extractLsb' start len = u.extractLsb' start len := by
    rw [← BitVec.extractLsb'_extractLsb'_of_le h, hlow, BitVec.extractLsb'_extractLsb'_of_le h]
  rw [decode, decode, if_pos hw, if_pos hu, hfield (by decide), hfield (by decide), hfield (by decide)]

/-- Settles O5: the two words have the same bits 15 and 12:0. -/
theorem commandBits14And13AreIgnored : Obligations.CommandBits14And13AreIgnored := by
  intro x r
  have hx : (0b1#1 ++ x ++ r).getLsbD 15 = true := by
    rw [BitVec.getLsbD_append, BitVec.getLsbD_append]
    rfl
  have h111 : (0b111#3 ++ r).getLsbD 15 = true := by
    rw [BitVec.getLsbD_append]
    rfl
  have hdec : decode (0b1#1 ++ x ++ r) = decode (0b111#3 ++ r) :=
    decode_congr_of_command hx h111
      (BitVec.extractLsb'_append_eq_right.trans BitVec.extractLsb'_append_eq_right.symm)
  exact ⟨hdec, fun s => by rw [hdec]⟩

/-- Settles O22: no word is without a meaning (30_encoding.md R69). -/
theorem everyInstructionCompletes : Obligations.EveryInstructionCompletes := Machine.exec_total

end Sys2Proof
end

section
/-! PROOFS, family 30_encoding: symbols (30_encoding.md R87, R89, R90). -/

namespace Sys2Proof.Machine

/-! ### The symbol table -/

/-- `t` becomes `t'` by binding `name` to `addr`: nothing changes if it is so bound, and an unbound name gets one new
binding. -/
def SymbolTable.Binds (t : SymbolTable) (name : List Char) (addr : Nat) (t' : SymbolTable) : Prop :=
  (t.lookup name = some addr ∧ t' = t) ∨ (t.lookup name = none ∧ t'.bindings = (name, addr) :: t.bindings)

/-- The name bound last. -/
theorem SymbolTable.lookup_of_bindings_cons_same {t t' : SymbolTable} {name : List Char} {addr : Nat}
    (h : t'.bindings = (name, addr) :: t.bindings) : t'.lookup name = some addr := by
  rw [lookup, h, List.lookup_cons_self]

/-- Every other name. -/
theorem SymbolTable.lookup_of_bindings_cons_other {t t' : SymbolTable} {name other : List Char} {addr : Nat}
    (h : t'.bindings = (name, addr) :: t.bindings) (hne : other ≠ name) : t'.lookup other = t.lookup other := by
  rw [lookup, h, List.lookup_cons, beq_false_of_ne hne, lookup]

theorem SymbolTable.Binds.lookup_same {t t' : SymbolTable} {name : List Char} {addr : Nat}
    (h : t.Binds name addr t') : t'.lookup name = some addr := by
  obtain ⟨hbound, rfl⟩ | ⟨-, hnew⟩ := h
  · exact hbound
  · exact lookup_of_bindings_cons_same hnew

/-- A bound name keeps its address: it is not the unbound one that gets a new binding. -/
theorem SymbolTable.Binds.lookup_keeps {t t' : SymbolTable} {name other : List Char} {addr n : Nat}
    (h : t.Binds other addr t') (hn : t.lookup name = some n) : t'.lookup name = some n := by
  obtain ⟨-, rfl⟩ | ⟨hfree, hnew⟩ := h
  · exact hn
  · have hne : name ≠ other := by
      rintro rfl
      simp [hfree] at hn
    rw [lookup_of_bindings_cons_other hnew hne, hn]

theorem SymbolTable.binds_of_define {t t' : SymbolTable} {name : List Char} {addr : Nat}
    (h : t.define name addr = .ok t') : t.Binds name addr t' := by
  unfold define at h
  split at h
  next bound hbound =>
    split at h
    next heq => cases h; exact .inl ⟨heq ▸ hbound, rfl⟩
    next => cases h
  next hfree => cases h; exact .inr ⟨hfree, rfl⟩

/-- A bound name is answered as it is bound (30_encoding.md R90). -/
theorem SymbolTable.allocate_of_bound {t : SymbolTable} {name : List Char} {addr : Nat}
    (h : t.lookup name = some addr) : t.allocate name = .ok (addr, t) := by
  rw [allocate, h]

/-- An unbound name gets the next free address (30_encoding.md R89). -/
theorem SymbolTable.allocate_of_unbound {t : SymbolTable} {name : List Char} (h : t.lookup name = none)
    (hfree : t.nextFree ≤ Config.literalMax) :
    t.allocate name = .ok (t.nextFree, ⟨(name, t.nextFree) :: t.bindings, t.nextFree + 1⟩) := by
  rw [allocate, h]
  exact if_pos hfree

theorem SymbolTable.binds_of_allocate {t t' : SymbolTable} {name : List Char} {addr : Nat}
    (h : t.allocate name = .ok (addr, t')) : t.Binds name addr t' := by
  unfold allocate at h
  split at h
  next bound hbound => cases h; exact .inl ⟨hbound, rfl⟩
  next hfree =>
    split at h
    · cases h; exact .inr ⟨hfree, rfl⟩
    · cases h

/-- Settles O45: define and allocate only ever bind, and the first two new names get addresses 16 and 17. -/
theorem symbolsAreNeverReassigned : Obligations.SymbolsAreNeverReassigned := by
  refine ⟨fun t t' name other n addr hn =>
      ⟨fun h => (SymbolTable.binds_of_define h).lookup_keeps hn,
        fun h => (SymbolTable.binds_of_allocate h).lookup_keeps hn⟩,
    fun t t' name addr =>
      ⟨fun h => (SymbolTable.binds_of_define h).lookup_same, fun h => (SymbolTable.binds_of_allocate h).lookup_same⟩,
    fun i j hij hi hj => ?_⟩
  have hfirst := SymbolTable.allocate_of_unbound hi (by decide)
  have hbound := (SymbolTable.binds_of_allocate hfirst).lookup_same
  have hjfree : SymbolTable.lookup ⟨(i, 16) :: SymbolTable.predefined.bindings, 17⟩ j = none :=
    (SymbolTable.lookup_of_bindings_cons_other rfl hij.symm).trans hj
  have hroom : 17 ≤ Config.literalMax := by decide
  exact ⟨_, _, hfirst, SymbolTable.allocate_of_bound hbound, SymbolTable.allocate_of_unbound hjfree hroom⟩

end Sys2Proof.Machine
end

section
/-! PROOFS, family 30_encoding: the textual binary form (30_encoding.md R72, R95) and the launch of a binary program
(70_reset_and_hazards.md R251). -/

namespace Sys2Proof.Machine

/-! ### Text without whitespace -/

theorem dropWhile_isSpace_of_no_space {l : Line} (h : ∀ c ∈ l, isSpace c = false) : l.dropWhile isSpace = l :=
  List.dropWhile_eq_self_iff.2 fun hl => by simp [h _ (List.getElem_mem hl)]

/-- Trimming leaves a line without whitespace as it is (30_encoding.md R80). -/
theorem trim_of_no_space {l : Line} (h : ∀ c ∈ l, isSpace c = false) : trim l = l := by
  rw [trim, dropWhile_isSpace_of_no_space h, dropWhile_isSpace_of_no_space fun c hc => h c (List.mem_reverse.1 hc),
    List.reverse_reverse]

/-! ### The text of a word -/

@[simp] theorem length_wordText (w : Word) : (wordText w).length = 16 := by simp [wordText]

/-- Character `i` of the text is bit `15 - i` (30_encoding.md R72). -/
theorem getElem?_wordText (w : Word) {i : Nat} (hi : i < 16) :
    (wordText w)[i]? = some (if w.getLsbD (15 - i) then '1' else '0') := by
  simp [wordText, hi, BitVec.getMsbD]

theorem mem_wordText {w : Word} {c : Char} (h : c ∈ wordText w) : c = '0' ∨ c = '1' := by
  obtain ⟨i, -, rfl⟩ := List.mem_map.1 h
  cases w.getMsbD i <;> simp

/-- The value of a text of binary digits, the first the most significant: the fold of `parseWord`. -/
def binaryValue (t : Line) : Nat := t.foldl (fun n c => 2 * n + if c == '1' then 1 else 0) 0

theorem binaryValue_concat (t : Line) (c : Char) :
    binaryValue (t ++ [c]) = 2 * binaryValue t + if c == '1' then 1 else 0 :=
  List.foldl_concat ..

theorem parseWord_of_bits {t : Line} (hlen : t.length = 16) (hbits : ∀ c ∈ t, c = '0' ∨ c = '1') :
    parseWord t = some (BitVec.ofNat 16 (binaryValue t)) := by
  have htrim : trim t = t := trim_of_no_space fun c hc => by
    obtain rfl | rfl := hbits c hc <;> decide
  have hall : t.all (fun c => c == '0' || c == '1') = true := by simpa using hbits
  simp only [parseWord, htrim, hlen, hall, binaryValue]
  rfl

/-- The value of the first `n` digits is the word shifted right by the other bits. -/
theorem binaryValue_take_wordText (w : Word) {n : Nat} (hn : n ≤ 16) :
    binaryValue ((wordText w).take n) = w.toNat / 2 ^ (16 - n) := by
  induction n with
  | zero => simpa [binaryValue] using (Nat.div_eq_of_lt w.isLt).symm
  | succ n ih =>
    have hlast : (wordText w).take (n + 1) =
        (wordText w).take n ++ [if w.getLsbD (15 - n) then '1' else '0'] := by
      rw [List.take_add_one, getElem?_wordText w hn]
      rfl
    have hdigit : (if (if w.getLsbD (15 - n) then '1' else '0') == '1' then 1 else 0) =
        w.toNat / 2 ^ (15 - n) % 2 := by
      rw [BitVec.getLsbD, Nat.testBit_eq_decide_div_mod_eq]
      obtain h | h := Nat.mod_two_eq_zero_or_one (w.toNat / 2 ^ (15 - n)) <;> simp [h]
    have hhalf : w.toNat / 2 ^ (16 - n) = w.toNat / 2 ^ (15 - n) / 2 := by
      rw [Nat.div_div_eq_div_mul, ← Nat.pow_succ, ← Nat.succ_sub (Nat.le_of_lt_succ hn)]
    rw [hlast, binaryValue_concat, ih (Nat.le_of_succ_le hn), hdigit, hhalf, Nat.add_sub_add_right 15 1 n]
    exact Nat.div_add_mod _ 2

/-- A word's text reads back as the word (30_encoding.md R95). -/
theorem parseWord_wordText (w : Word) : parseWord (wordText w) = some w := by
  have hvalue : binaryValue (wordText w) = w.toNat := by
    have h := binaryValue_take_wordText w (Nat.le_refl 16)
    rwa [List.take_of_length_le (length_wordText w).le, Nat.sub_self, pow_zero, Nat.div_one] at h
  rw [parseWord_of_bits (length_wordText w) fun _ => mem_wordText, hvalue, BitVec.ofNat_toNat, BitVec.setWidth_eq]

/-- Settles O42; the text reads back because its first `n` digits have the value of the word's top `n` bits. -/
theorem wordTextReadsBack : Obligations.WordTextReadsBack :=
  fun w => ⟨length_wordText w, fun _ => getElem?_wordText w, parseWord_wordText w⟩

/-! ### Binary programs -/

/-- The texts of a program's words parse to the program, line by line. -/
theorem parseProgram_wordText (ws : List Word) : parseProgram (ws.map wordText) = .ok ws := by
  induction ws with
  | nil => rfl
  | cons w ws ih =>
    rw [List.map_cons, parseProgram, parseWord_wordText, ih]
    rfl

/-- A launch succeeds when each of its three checks does (70_reset_and_hazards.md R251). -/
theorem launch_of_checks {args : LaunchArgs} {rom : List Word} {b : Budget}
    (hread : readProgram args.isSourceForm args.lines = .ok rom) (hlen : rom.length ≤ Config.romMax)
    (hbudget : args.cycleBudget.budget = .ok b) :
    launch args = .next (State.start args.initA args.initD b rom) := by
  simp only [launch, hread, if_neg (Nat.not_lt.2 hlen), hbudget]

/-- Settles O46: the lines, the length and the budget of such a launch pass their checks. -/
theorem binaryProgramsLaunch : Obligations.BinaryProgramsLaunch := by
  intro ws initA initD hlen
  have hread : readProgram false (ws.map wordText) = .ok ws := parseProgram_wordText ws
  exact ⟨launch_of_checks hread hlen rfl, fun n => launch_of_checks hread hlen rfl⟩

end Sys2Proof.Machine
end

section
/-! PROOFS, family 30_encoding: a command line against the spec's tables of computations, destinations and jumps
(30_encoding.md R73 to R75, R85). -/

namespace Sys2Proof.Claims

/-- The instruction with the codes of the three rows. -/
def CommandRows.instr (r : CommandRows) : Instr :=
  decodeCommand r.comp.2 (Dest.ofBits r.dest.2) (Jump.ofBits r.jump.2)

/-- Its word is `111 comp dest jump` (30_encoding.md R91). -/
theorem CommandRows.encode_instr (r : CommandRows) : encode r.instr = r.word := by
  rw [instr, encode_decodeCommand, commandWord, Dest.toBits_ofBits, Jump.toBits_ofBits, word]

end Sys2Proof.Claims

namespace Sys2Proof.Machine

open Sys2Proof.Claims

/-! ### The spec's tables against the model's -/

theorem destRows_eq : destRows = ([], 0b000#3) :: destTable.map fun p => (p.1 ++ ['='], p.2.toBits) := by decide

theorem jumpRows_eq : jumpRows = ([], 0b000#3) :: jumpTable.map fun p => (';' :: p.1, p.2.toBits) := by decide

theorem compTable_eq : compTable = compRows.map fun p => (p.1, decodeCommand p.2) := rfl

theorem lookup_destTable {text : List Char} {d : Dest} : destTable.lookup text = some d ↔ (text, d) ∈ destTable :=
  have hnodup : (destTable.map Prod.fst).Nodup := by decide
  lookup_eq_some_iff_mem hnodup

theorem lookup_jumpTable {text : List Char} {j : Jump} : jumpTable.lookup text = some j ↔ (text, j) ∈ jumpTable :=
  have hnodup : (jumpTable.map Prod.fst).Nodup := by decide
  lookup_eq_some_iff_mem hnodup

theorem lookup_compTable {text : List Char} {mk : Dest → Jump → Instr} :
    compTable.lookup text = some mk ↔ ∃ code, (text, code) ∈ compRows ∧ decodeCommand code = mk := by
  have hnodup : (compTable.map Prod.fst).Nodup := by decide
  rw [lookup_eq_some_iff_mem hnodup, compTable_eq, List.mem_map]
  constructor
  · rintro ⟨⟨text, code⟩, hmem, h⟩
    cases h
    exact ⟨code, hmem, rfl⟩
  · rintro ⟨code, hmem, rfl⟩
    exact ⟨_, hmem, rfl⟩

/-! ### Cutting a command into its fragments -/

theorem splitFirst_of_not_mem {c : Char} {l : List Char} (h : c ∉ l) : splitFirst c l = none := by
  induction l with
  | nil => rfl
  | cons x l ih =>
    rw [splitFirst, if_neg (List.ne_of_not_mem_cons h).symm, ih (List.not_mem_of_not_mem_cons h)]
    rfl

theorem splitFirst_append_cons {c : Char} {x : List Char} (h : c ∉ x) (l : List Char) :
    splitFirst c (x ++ c :: l) = some (x, l) := by
  induction x with
  | nil => exact if_pos rfl
  | cons y x ih =>
    rw [List.cons_append, splitFirst, if_neg (List.ne_of_not_mem_cons h).symm,
      ih (List.not_mem_of_not_mem_cons h)]
    rfl

theorem eq_append_of_splitFirst {c : Char} {text x l : List Char} (h : splitFirst c text = some (x, l)) :
    text = x ++ c :: l := by
  induction text generalizing x with
  | nil => cases h
  | cons y text ih =>
    rw [splitFirst] at h
    split at h
    next hy => cases h; rw [hy, List.nil_append]
    next =>
      obtain ⟨⟨x', l'⟩, hsplit, heq⟩ := Option.map_eq_some_iff.1 h
      cases heq
      rw [ih hsplit, List.cons_append]

/-- The destination fragment of a text that begins with a destination row (30_encoding.md R74, R85). -/
theorem destFragment_of_row {row : List Char × BitVec 3} (hrow : row ∈ destRows) {rest : List Char}
    (hrest : '=' ∉ rest) : destFragment (row.1 ++ rest) = (some (Dest.ofBits row.2), rest) := by
  rw [destRows_eq, List.mem_cons, List.mem_map] at hrow
  obtain rfl | ⟨⟨text, d⟩, hmem, rfl⟩ := hrow
  · rw [List.nil_append, destFragment, splitFirst_of_not_mem hrest]
    rfl
  · have hname : ∀ p ∈ destTable, '=' ∉ p.1 := by decide
    rw [List.append_assoc, List.singleton_append, destFragment, splitFirst_append_cons (hname _ hmem)]
    simp only [lookup_destTable.2 hmem, Dest.ofBits_toBits]

/-- A destination fragment that the model accepts is a destination row. -/
theorem row_of_destFragment {text rest : List Char} {d : Dest} (h : destFragment text = (some d, rest)) :
    ∃ row ∈ destRows, text = row.1 ++ rest ∧ d = Dest.ofBits row.2 := by
  simp only [destRows_eq, List.mem_cons, List.mem_map]
  unfold destFragment at h
  split at h
  next name rest' hsplit =>
    obtain ⟨hlookup, rfl⟩ := Prod.mk.inj h
    refine ⟨_, .inr ⟨_, lookup_destTable.1 hlookup, rfl⟩, ?_, (Dest.ofBits_toBits d).symm⟩
    rw [eq_append_of_splitFirst hsplit, List.append_assoc, List.singleton_append]
  next => cases h; exact ⟨_, .inl rfl, rfl, rfl⟩

/-- The jump fragment of a text that ends with a jump row (30_encoding.md R75, R85). -/
theorem jumpFragment_of_row {row : List Char × BitVec 3} (hrow : row ∈ jumpRows) {comp : List Char}
    (hcomp : ';' ∉ comp) : jumpFragment (comp ++ row.1) = (comp, some (Jump.ofBits row.2)) := by
  rw [jumpRows_eq, List.mem_cons, List.mem_map] at hrow
  obtain rfl | ⟨⟨text, j⟩, hmem, rfl⟩ := hrow
  · rw [List.append_nil, jumpFragment, splitFirst_of_not_mem hcomp]
    rfl
  · rw [jumpFragment, splitFirst_append_cons hcomp]
    simp only [lookup_jumpTable.2 hmem, Jump.ofBits_toBits]

/-- A jump fragment that the model accepts is a jump row. -/
theorem row_of_jumpFragment {text comp : List Char} {j : Jump} (h : jumpFragment text = (comp, some j)) :
    ∃ row ∈ jumpRows, text = comp ++ row.1 ∧ j = Jump.ofBits row.2 := by
  simp only [jumpRows_eq, List.mem_cons, List.mem_map]
  unfold jumpFragment at h
  split at h
  next comp' name hsplit =>
    obtain ⟨rfl, hlookup⟩ := Prod.mk.inj h
    exact ⟨_, .inr ⟨_, lookup_jumpTable.1 hlookup, rfl⟩, eq_append_of_splitFirst hsplit, (Jump.ofBits_toBits j).symm⟩
  next => cases h; exact ⟨_, .inl rfl, (List.append_nil _).symm, rfl⟩

/-- A command assembles exactly if rows of the spec's tables spell it, and then to the instruction with their codes
(30_encoding.md R85). -/
theorem assembleCommand_eq_ok_iff {text : List Char} {i : Instr} :
    assembleCommand text = .ok i ↔ ∃ r : CommandRows, r.inTables ∧ text = r.text ∧ r.instr = i := by
  constructor
  · intro h
    rcases hd : destFragment text with ⟨d, rest⟩
    rcases hj : jumpFragment rest with ⟨comp, j⟩
    simp only [assembleCommand, hd, hj] at h
    split at h
    next d mk j hcomp =>
      obtain ⟨drow, hdrow, rfl, rfl⟩ := row_of_destFragment hd
      obtain ⟨jrow, hjrow, rfl, rfl⟩ := row_of_jumpFragment hj
      obtain ⟨code, hcode, rfl⟩ := lookup_compTable.1 hcomp
      cases h
      exact ⟨⟨drow, (comp, code), jrow⟩, ⟨hdrow, hcode, hjrow⟩, (List.append_assoc ..).symm, rfl⟩
    next => cases h
  · rintro ⟨⟨d, ⟨comp, code⟩, j⟩, ⟨hd, hc, hj⟩, rfl, rfl⟩
    have hcomp : ∀ c ∈ compRows, '=' ∉ c.1 ∧ ';' ∉ c.1 := by decide
    have hjump : ∀ j ∈ jumpRows, '=' ∉ j.1 := by decide
    have hrest : '=' ∉ comp ++ j.1 := by simpa using ⟨(hcomp _ hc).1, hjump _ hj⟩
    have hlookup : compTable.lookup comp = some (decodeCommand code) := lookup_compTable.2 ⟨code, hc, rfl⟩
    simp only [assembleCommand, CommandRows.text, List.append_assoc, destFragment_of_row hd hrest,
      jumpFragment_of_row hj (hcomp _ hc).2, hlookup]
    rfl

/-- The one error of a command (30_encoding.md R85, R94). -/
theorem assembleCommand_eq_error {text : List Char} (h : ∀ r : CommandRows, r.inTables → text ≠ r.text) :
    assembleCommand text = .error .invalidMnemonic := by
  cases hcmd : assembleCommand text with
  | ok i =>
    obtain ⟨r, hr, htext, -⟩ := assembleCommand_eq_ok_iff.1 hcmd
    exact absurd htext (h r hr)
  | error e =>
    unfold assembleCommand at hcmd
    dsimp only at hcmd
    split at hcmd
    · cases hcmd
    · cases hcmd; rfl

end Sys2Proof.Machine
end

section
/-! PROOFS, family 30_encoding: the two passes of the assembler over the lines of a source (30_encoding.md R80, R88,
R92). -/

namespace Sys2Proof

/-- An instruction with a spelling: an address instruction or a computation with a row in R73. -/
def Instr.Named (i : Instr) : Prop := ∀ y c d j, i ≠ .unnamed y c d j

theorem Instr.Named.wellFormed {i : Instr} (h : i.Named) : i.wellFormed = true := by
  cases i with
  | unnamed y c d j => exact absurd rfl (h y c d j)
  | _ => rfl

end Sys2Proof

namespace Sys2Proof.Machine

open Sys2Proof.Claims

/-! ### The class of a command line -/

/-- The characters that keep a line from being anything but a command: no comment, no whitespace, no label, no
address (30_encoding.md R80). -/
def isMnemonicChar (c : Char) : Bool := c != '/' && !isSpace c && c != '(' && c != '@'

theorem stripComment_of_no_slash {l : Line} (h : '/' ∉ l) : stripComment l = l := by
  induction l with
  | nil => rfl
  | cons c l ih =>
    have hc : c ≠ '/' := (List.ne_of_not_mem_cons h).symm
    rw [stripComment, ih (List.not_mem_of_not_mem_cons h)]
    rintro l' rfl
    exact absurd rfl hc

/-- A line of mnemonic characters is a command, and its own stripped text. -/
theorem classify_of_mnemonic {l : Line} (hne : l ≠ []) (h : ∀ c ∈ l, isMnemonicChar c = true) :
    classify l = .command l := by
  have hslash : '/' ∉ l := fun hc => absurd (h _ hc) (by decide)
  have hspace : ∀ c ∈ l, isSpace c = false := fun c hc => by
    obtain ⟨⟨⟨-, hc⟩, -⟩, -⟩ : ((c ≠ '/' ∧ isSpace c = false) ∧ c ≠ '(') ∧ c ≠ '@' := by
      simpa [isMnemonicChar] using h c hc
    exact hc
  rw [classify, stripComment_of_no_slash hslash, trim_of_no_space hspace]
  split
  · exact absurd rfl hne
  · exact absurd (h '(' (by simp)) (by decide)
  · exact absurd (h '@' (by simp)) (by decide)
  · rfl

/-- A command spelled by rows of the spec's tables is a command line. -/
theorem classify_rowsText {r : CommandRows} (hr : r.inTables) : classify r.text = .command r.text := by
  obtain ⟨hd, hc, hj⟩ := hr
  have hdest : ∀ p ∈ destRows, p.1.all isMnemonicChar = true := by decide
  have hcomp : ∀ p ∈ compRows, p.1 ≠ [] ∧ p.1.all isMnemonicChar = true := by decide
  have hjump : ∀ p ∈ jumpRows, p.1.all isMnemonicChar = true := by decide
  refine classify_of_mnemonic ?_ fun c hmem => ?_
  · simp [CommandRows.text, (hcomp _ hc).1]
  · simp only [CommandRows.text, List.mem_append] at hmem
    obtain (h | h) | h := hmem
    · exact List.all_eq_true.1 (hdest _ hd) c h
    · exact List.all_eq_true.1 (hcomp _ hc).2 c h
    · exact List.all_eq_true.1 (hjump _ hj) c h

/-! ### Pass 1 and pass 2 -/

/-- Related lists: every member of the first is related to a member of the second. -/
theorem exists_mem_of_forall₂ {α β : Type} {R : α → β → Prop} {l : List α} {m : List β} (h : List.Forall₂ R l m)
    {a : α} (ha : a ∈ l) : ∃ b ∈ m, R a b := by
  induction h with
  | nil => cases ha
  | cons hab hlm ih =>
    obtain rfl | ha := List.mem_cons.1 ha
    · exact ⟨_, List.mem_cons_self, hab⟩
    · obtain ⟨b, hb, hR⟩ := ih ha
      exact ⟨b, List.mem_cons_of_mem _ hb, hR⟩

/-- What pass 2 may emit for an instruction line (30_encoding.md R82, R85). -/
inductive Emits : SourceLine → Instr → Prop
  | address (token : List Char) (v : BitVec 15) : Emits (.address token) (.atValue v)
  | command {text : List Char} {i : Instr} (h : assembleCommand text = .ok i) : Emits (.command text) i

theorem addressInstr_eq_ok {n : Nat} {i : Instr} (h : addressInstr n = .ok i) : ∃ v, i = .atValue v := by
  unfold addressInstr at h
  split at h
  · cases h; exact ⟨_, rfl⟩
  · cases h

theorem except_map_eq_ok {ε α β : Type} {f : α → β} {x : Except ε α} {b : β} (h : x.map f = .ok b) :
    ∃ a, x = .ok a ∧ f a = b := by
  cases x with
  | ok a => cases h; exact ⟨a, rfl, rfl⟩
  | error e => cases h

/-- An address line gives an address instruction (30_encoding.md R82). -/
theorem assembleAddress_eq_ok {token : List Char} {t t' : SymbolTable} {i : Instr}
    (h : assembleAddress token t = .ok (i, t')) : ∃ v, i = .atValue v := by
  have hmap {n : Nat} {u : SymbolTable} (h : (addressInstr n).map (·, u) = .ok (i, t')) : ∃ v, i = .atValue v := by
    obtain ⟨i', hi', heq⟩ := except_map_eq_ok h
    cases heq
    exact addressInstr_eq_ok hi'
  unfold assembleAddress at h
  split at h
  · exact hmap h
  · split at h
    · split at h
      · exact hmap h
      · cases h
    · cases h

/-- Pass 2 emits one instruction per instruction line, in order (30_encoding.md R92). -/
theorem emitInstrs_eq_ok {src : List SourceLine} {t : SymbolTable} {is : List Instr} (h : emitInstrs src t = .ok is) :
    List.Forall₂ Emits (src.filter isInstrLine) is := by
  induction src generalizing t is with
  | nil => cases h; exact .nil
  | cons line src ih =>
    cases line with
    | blank => exact ih h
    | label name => exact ih h
    | badLabel => exact ih h
    | address token =>
      simp only [emitInstrs] at h
      split at h
      next i t' hi =>
        obtain ⟨is', his, rfl⟩ := except_map_eq_ok h
        obtain ⟨v, rfl⟩ := assembleAddress_eq_ok hi
        exact .cons (.address token v) (ih his)
      next => cases h
    | command text =>
      simp only [emitInstrs] at h
      split at h
      next i hi =>
        obtain ⟨is', his, rfl⟩ := except_map_eq_ok h
        exact .cons (.command hi) (ih his)
      next => cases h

/-- A source that assembles passes both passes, and its words are those of the instructions emitted for its lines. -/
theorem assemble_eq_ok {lines : List Line} {ws : List Word} (h : assemble lines = .ok ws) :
    ∃ is, List.Forall₂ Emits ((lines.map classify).filter isInstrLine) is ∧ is.map encode = ws := by
  obtain ⟨is, his, rfl⟩ := except_map_eq_ok h
  unfold assembleInstrs at his
  split at his
  · exact ⟨is, emitInstrs_eq_ok his, rfl⟩
  · cases his

/-- Pass 1 over command lines binds nothing. -/
theorem resolveLabels_commands (texts : List (List Char)) (n : Nat) (t : SymbolTable) :
    resolveLabels (texts.map .command) n t = .ok t := by
  induction texts generalizing n with
  | nil => rfl
  | cons text texts ih => exact ih (n + 1)

/-- A source of command lines assembles as pass 2 says. -/
theorem assemble_commands {lines texts : List (List Char)} (h : lines.map classify = texts.map .command) :
    assemble lines = (emitInstrs (texts.map .command) .predefined).map (·.map encode) := by
  rw [assemble, assembleInstrs, h, resolveLabels_commands]

/-! ### The tables' commands assemble, and no others -/

theorem emitInstrs_rowsText {rows : List CommandRows} (h : ∀ r ∈ rows, r.inTables) (t : SymbolTable) :
    emitInstrs ((rows.map CommandRows.text).map .command) t = .ok (rows.map CommandRows.instr) := by
  induction rows with
  | nil => rfl
  | cons r rows ih =>
    obtain ⟨hr, hrows⟩ := List.forall_mem_cons.1 h
    have hcmd : assembleCommand r.text = .ok r.instr := assembleCommand_eq_ok_iff.2 ⟨r, hr, rfl, rfl⟩
    simp only [List.map_cons, emitInstrs, hcmd, ih hrows]
    rfl

/-- Settles O43: every line is a command, and assembles to the instruction of its rows. -/
theorem tableCommandsAssemble : Obligations.TableCommandsAssemble := by
  intro rows hrows
  have hclass : (rows.map CommandRows.text).map classify = (rows.map CommandRows.text).map .command := by
    simpa using fun r hr => classify_rowsText (hrows r hr)
  have hwords : (rows.map CommandRows.instr).map encode = rows.map CommandRows.word := by
    simp [CommandRows.encode_instr]
  rw [assemble_commands hclass, emitInstrs_rowsText hrows, ← hwords]
  rfl

/-- Settles O49: pass 2 emits an instruction for every command line of a source that assembles, and only rows of the
tables give one. -/
theorem otherCommandsAreInvalidMnemonics : Obligations.OtherCommandsAreInvalidMnemonics := by
  intro lines l text hl hclass hrows
  have herr : assembleCommand text = .error .invalidMnemonic := assembleCommand_eq_error hrows
  constructor
  · cases h : assemble lines with
    | error e => exact ⟨e, rfl⟩
    | ok ws =>
      obtain ⟨is, his, -⟩ := assemble_eq_ok h
      have hline : .command text ∈ (lines.map classify).filter isInstrLine :=
        List.mem_filter.2 ⟨List.mem_map.2 ⟨l, hl, hclass⟩, rfl⟩
      obtain ⟨i, -, hi⟩ := exists_mem_of_forall₂ his hline
      cases hi with
      | command hok => rw [herr] at hok; cases hok
  · rw [assemble_commands (lines := [l]) (texts := [text]) (by simp [hclass])]
    simp only [List.map_cons, emitInstrs, herr]
    rfl

/-! ### The words an assembler emits -/

theorem named_compTable : ∀ p ∈ compTable, ∀ d j, (p.2 d j).Named := by
  simp [compTable, Instr.Named]

/-- No assembly text gives an unnamed code (30_encoding.md R85). -/
theorem named_of_emits {line : SourceLine} {i : Instr} (h : Emits line i) : i.Named := by
  cases h with
  | address token v => exact fun _ _ _ _ => Instr.noConfusion
  | command h =>
    obtain ⟨r, ⟨-, hcomp, -⟩, -, rfl⟩ := assembleCommand_eq_ok_iff.1 h
    have hmem : (r.comp.1, decodeCommand r.comp.2) ∈ compTable :=
      compTable_eq ▸ List.mem_map.2 ⟨r.comp, hcomp, rfl⟩
    exact named_compTable _ hmem _ _

/-- Settles O44: the emitted instructions are named, and so survive encoding. -/
theorem assembledWordsAreNamedInstructions : Obligations.AssembledWordsAreNamedInstructions := by
  intro lines ws h
  obtain ⟨is, his, rfl⟩ := assemble_eq_ok h
  refine ⟨by rw [List.length_map, his.length_eq], fun w hw => ?_⟩
  obtain ⟨i, hi, rfl⟩ := List.mem_map.1 hw
  obtain ⟨line, -, hemits⟩ := exists_mem_of_forall₂ his.flip hi
  have hnamed : i.Named := named_of_emits hemits
  rw [decode_encode hnamed.wellFormed]
  exact ⟨rfl, hnamed⟩

end Sys2Proof.Machine
end

section
/-! PROOFS, family 40_address_instruction: `@value` (40_address_instruction.md R100). -/

namespace Sys2Proof.Machine

/-- The effect of `@value` in the state's operations. -/
@[simp] theorem exec_atValue (v : BitVec 15) (s : State) :
    exec (.atValue v) s = .next ((s.setA (v.zeroExtend 16)).setPc (s.pc + 1)) := rfl

/-- A zero-extended literal has bit 15 clear (30_encoding.md R70). -/
theorem zeroExtend_literal_bit15 (v : BitVec 15) : (v.zeroExtend 16).getLsbD 15 = false := by
  have h : v.getLsbD 15 = false := BitVec.getLsbD_of_ge v 15 (Nat.le_refl 15)
  rw [BitVec.zeroExtend, BitVec.getLsbD_setWidth, h, Bool.and_false]

/-- Settles O6, clause by clause: the word, its decoding, the effect, and bit 15 of the new A. -/
theorem atValueLoadsTheLiteralIntoA : Obligations.AtValueLoadsTheLiteralIntoA :=
  fun v s => ⟨rfl, decode_atValueWord v, exec_atValue v s, zeroExtend_literal_bit15 v⟩

end Sys2Proof.Machine
end

section
/-! PROOFS, family 41_alu: the ALU's stages and signals, and the closed form of every control pattern (41_alu.md R111,
R112, R151). -/

namespace Sys2Proof.Machine

open Sys2Proof.Claims

/-! ### Stages and signals -/

@[simp] theorem zr_eq_true_iff (out : Word) : zr out = true ↔ out = 0 := beq_iff_eq

@[simp] theorem conditionInput_pass (v : Word) : conditionInput false false v = v := rfl

@[simp] theorem conditionInput_complement (v : Word) : conditionInput false true v = ~~~v := rfl

@[simp] theorem conditionInput_zero (v : Word) : conditionInput true false v = 0 := rfl

/-- Zeroing comes before complementing (41_alu.md R111). -/
@[simp] theorem conditionInput_ones (v : Word) : conditionInput true true v = 0xFFFF#16 := by
  show ~~~0#16 = 0xFFFF#16
  decide

/-- The model's ALU is the spec's staged function, by its definition. -/
theorem alu_ofBits (c : BitVec 6) (x y : Word) : alu (AluControl.ofBits c) x y = aluBits c x y := rfl

/-- Settles O14: the stages and ng by definition, zr by what a test for 0 says. -/
theorem aluEvaluatesItsStagesInOrder : Obligations.AluEvaluatesItsStagesInOrder :=
  fun c x y => ⟨alu_ofBits c x y, zr_eq_true_iff _, rfl⟩

/-! ### Closed forms -/

/-- `simp` writes all ones as a numeral, where the library has `BitVec.allOnes`. -/
@[simp] theorem ones_and (v : Word) : 0xFFFF#16 &&& v = v := BitVec.allOnes_and

@[simp] theorem and_ones (v : Word) : v &&& 0xFFFF#16 = v := BitVec.and_allOnes

/-- Row `n` of the table is the ALU under the control pattern `n`. The stages reduce an AND row (f = 0) to De Morgan's
laws, which `simp` has; what they leave of a sum row (f = 1) is an equation modulo 2^16. -/
theorem alu_eq_of_mem_zipIdx_closedForms :
    ∀ row ∈ closedForms.zipIdx, ∀ x y, alu (AluControl.ofBits (BitVec.ofNat 6 row.2)) x y = row.1 x y := by
  simp only [closedForms, List.zipIdx_cons, List.zipIdx_nil, List.forall_mem_cons]
  and_intros <;> simp [AluControl.ofBits, alu, BitVec.not_and]
  all_goals
    intros
    bv_omega

/-- Settles O15: every pattern is the number of a row. -/
theorem aluClosedForms : Obligations.AluClosedForms := by
  intro c x y
  have hc : c.toNat < closedForms.length := c.isLt
  have hrow := alu_eq_of_mem_zipIdx_closedForms (closedForms[c.toNat], c.toNat)
    (List.mk_mem_zipIdx_iff_getElem?.2 (List.getElem?_eq_getElem hc)) x y
  rwa [BitVec.ofNat_toNat, BitVec.setWidth_eq, ← List.getD_eq_getElem _ (fun _ _ => 0) hc] at hrow

end Sys2Proof.Machine
end

section
/-! PROOFS, family 41_alu: what a command instruction does with its computation code, and the 28 named rows (41_alu.md
R120 to R147, R150). -/

namespace Sys2Proof.Machine

open Sys2Proof.Claims

/-! ### A computation code executed -/

/-- The meaning of a named row is the command with the fields of its code. -/
theorem exec_namedRow : ∀ row ∈ namedRows, ∀ d j s,
    exec (row.2 d j) s = .next (command (codeFields row.1).1 (codeFields row.1).2 d j s) := by
  intro row hrow d j s
  fin_cases hrow <;> rfl

/-- So every computation code, named or not, executes by the ALU rule on its bits (41_alu.md R150). -/
theorem exec_decodeCommand (code : BitVec 7) (d : Dest) (j : Jump) (s : State) :
    exec (decodeCommand code d j) s = .next (command (codeFields code).1 (codeFields code).2 d j s) := by
  obtain ⟨mk, hmem, h⟩ | ⟨-, h⟩ := decodeCommand_cases code
  · rw [h, exec_namedRow _ hmem]
  · rw [h]
    rfl

/-- In a canonical memory, writeback gives the result to its receivers and keeps the rest (42_command.md R160). -/
theorem receives_writeback {s : State} (hwf : s.mem.wf) (d : Dest) (j : Jump) (out : Word) :
    Receives d out s (writeback d j out s) := by
  refine ⟨writeback_regA .., writeback_regD .., fun hM => ?_, fun a => writeback_mem_read_frame j out,
    fun a => mem_writeback_written, writeback_rom .., writeback_budget ..⟩
  rw [writeback_mem, if_pos hM]
  exact Memory.read_write_same _ _ _ hwf

/-! ### Unnamed codes -/

theorem operandY_ofBit (a : Bool) (s : State) :
    operandY (YSource.ofBit a) s = if a then opM s else s.regA := by
  cases a <;> rfl

theorem taken_eq_condBits (j : Jump) (out : Word) : taken j out = condBits j.toBits out := by
  rw [← Jump.ofBits_toBits j, Jump.toBits_ofBits]
  rfl

/-- Settles O13: an unnamed code writes back the ALU's result. -/
theorem unnamedCodesExecuteByTheAluRule : Obligations.UnnamedCodesExecuteByTheAluRule := by
  intro a c d j s hwf
  rw [← operandY_ofBit, ← taken_eq_condBits]
  exact ⟨_, rfl, receives_writeback hwf d j _, writeback_pc ..⟩

/-! ### Named rows -/

/-- A row holds if its code decodes to it, its control pattern's closed form is its result on D and the y operand, and
that result meets the row's conditions for zr and ng. -/
theorem rowRule_of_closedForm {mk : Dest → Jump → Instr} {code : BitVec 7} {out : State → Word}
    {zrIff ngIff : State → Prop} (hmk : decodeCommand code = mk)
    (hout : ∀ s, closedForms.getD (code.extractLsb' 0 6).toNat (fun _ _ => 0) s.regD
      (operandY (codeFields code).1 s) = out s)
    (hzr : ∀ s, out s = 0 ↔ zrIff s) (hng : ∀ s, (out s).getLsbD 15 = true ↔ ngIff s) :
    RowRule mk code out zrIff ngIff := by
  subst hmk
  intro db jb s hwf
  have hword : commandWord code (Dest.ofBits db) (Jump.ofBits jb) = 0b111#3 ++ code ++ db ++ jb := by
    rw [commandWord, Dest.toBits_ofBits, Jump.toBits_ofBits]
  have halu : alu (codeFields code).2 s.regD (operandY (codeFields code).1 s) = out s :=
    (aluClosedForms _ _ _).trans (hout s)
  refine ⟨?_, ?_, ⟨_, exec_decodeCommand .., ?_⟩, (zr_eq_true_iff _).trans (hzr s), hng s⟩
  · rw [encode_decodeCommand, hword]
  · rw [← hword, decode_commandWord]
  · rw [command_eq, halu]
    exact receives_writeback hwf ..

/-! ### When a result is zero, and its bit 15 -/

theorem not_eq_zero_iff (v : Word) : ~~~v = 0 ↔ v = 0xFFFF#16 := by bv_omega

theorem not_bit15_iff (v : Word) : (~~~v).getLsbD 15 = true ↔ v.getLsbD 15 = false := by simp

theorem zero_sub_eq_zero_iff (v : Word) : 0 - v = 0 ↔ v = 0 := by rw [zero_sub, neg_eq_zero]

theorem add_one_eq_zero_iff (v : Word) : v + 1 = 0 ↔ v = 0xFFFF#16 := by bv_omega

theorem or_bit15_iff (v u : Word) : (v ||| u).getLsbD 15 = true ↔ v.getLsbD 15 = true ∨ u.getLsbD 15 = true := by
  rw [BitVec.getLsbD_or, Bool.or_eq_true]

/-! ### The 28 rows -/

/-- Settles O7: each pattern's closed form is the constant, and the signals are evaluated on it. -/
theorem constantComputations : Obligations.ConstantComputations :=
  ⟨rowRule_of_closedForm rfl (fun _ => rfl) (fun _ => by decide) (fun _ => by decide),
    rowRule_of_closedForm rfl (fun _ => rfl) (fun _ => by decide) (fun _ => by decide),
    rowRule_of_closedForm rfl (fun _ => rfl) (fun _ => by decide) (fun _ => by decide)⟩

/-- Settles O8: a passed operand has its own signals, a complemented one those of `not_eq_zero_iff` and
`not_bit15_iff`. -/
theorem passAndNotComputations : Obligations.PassAndNotComputations :=
  ⟨rowRule_of_closedForm rfl (fun _ => rfl) (fun _ => Iff.rfl) (fun _ => Iff.rfl),
    rowRule_of_closedForm rfl (fun _ => rfl) (fun _ => Iff.rfl) (fun _ => Iff.rfl),
    rowRule_of_closedForm rfl (fun _ => rfl) (fun _ => not_eq_zero_iff _) (fun _ => not_bit15_iff _),
    rowRule_of_closedForm rfl (fun _ => rfl) (fun _ => not_eq_zero_iff _) (fun _ => not_bit15_iff _)⟩

/-- Settles O9: the closed forms are the results modulo 2^16, of which each is 0 for one operand. -/
theorem negateIncrementDecrementComputations : Obligations.NegateIncrementDecrementComputations :=
  ⟨rowRule_of_closedForm rfl (fun _ => (zero_sub _).symm) (fun _ => zero_sub_eq_zero_iff _) (fun _ => Iff.rfl),
    rowRule_of_closedForm rfl (fun _ => (zero_sub _).symm) (fun _ => zero_sub_eq_zero_iff _) (fun _ => Iff.rfl),
    rowRule_of_closedForm rfl (fun _ => rfl) (fun _ => add_one_eq_zero_iff _) (fun _ => Iff.rfl),
    rowRule_of_closedForm rfl (fun _ => rfl) (fun _ => add_one_eq_zero_iff _) (fun _ => Iff.rfl),
    rowRule_of_closedForm rfl (fun _ => rfl) (fun _ => sub_eq_zero) (fun _ => Iff.rfl),
    rowRule_of_closedForm rfl (fun _ => rfl) (fun _ => sub_eq_zero) (fun _ => Iff.rfl)⟩

/-- Settles O10: a difference is 0 for equal operands, and bit 15 of an OR is the OR of the bits. -/
theorem twoRegisterComputations : Obligations.TwoRegisterComputations :=
  ⟨rowRule_of_closedForm rfl (fun _ => rfl) (fun _ => Iff.rfl) (fun _ => Iff.rfl),
    rowRule_of_closedForm rfl (fun _ => rfl) (fun _ => sub_eq_zero) (fun _ => Iff.rfl),
    rowRule_of_closedForm rfl (fun _ => neg_add_eq_sub _ _) (fun _ => sub_eq_zero) (fun _ => Iff.rfl),
    rowRule_of_closedForm rfl (fun _ => rfl) (fun _ => Iff.rfl) (fun _ => Iff.rfl),
    rowRule_of_closedForm rfl (fun _ => rfl) (fun _ => BitVec.or_eq_zero_iff) (fun _ => or_bit15_iff _ _)⟩

/-- Settles O11: the rows of A with the y operand M. -/
theorem memoryOperandComputations : Obligations.MemoryOperandComputations :=
  ⟨rowRule_of_closedForm rfl (fun _ => rfl) (fun _ => Iff.rfl) (fun _ => Iff.rfl),
    rowRule_of_closedForm rfl (fun _ => rfl) (fun _ => not_eq_zero_iff _) (fun _ => not_bit15_iff _),
    rowRule_of_closedForm rfl (fun _ => (zero_sub _).symm) (fun _ => zero_sub_eq_zero_iff _) (fun _ => Iff.rfl),
    rowRule_of_closedForm rfl (fun _ => rfl) (fun _ => add_one_eq_zero_iff _) (fun _ => Iff.rfl),
    rowRule_of_closedForm rfl (fun _ => rfl) (fun _ => sub_eq_zero) (fun _ => Iff.rfl)⟩

/-- Settles O12: the rows of D and A with the y operand M. -/
theorem registerAndMemoryComputations : Obligations.RegisterAndMemoryComputations :=
  ⟨rowRule_of_closedForm rfl (fun _ => rfl) (fun _ => Iff.rfl) (fun _ => Iff.rfl),
    rowRule_of_closedForm rfl (fun _ => rfl) (fun _ => sub_eq_zero) (fun _ => Iff.rfl),
    rowRule_of_closedForm rfl (fun _ => neg_add_eq_sub _ _) (fun _ => sub_eq_zero) (fun _ => Iff.rfl),
    rowRule_of_closedForm rfl (fun _ => rfl) (fun _ => Iff.rfl) (fun _ => Iff.rfl),
    rowRule_of_closedForm rfl (fun _ => rfl) (fun _ => Iff.rfl) (fun _ => Iff.rfl)⟩

end Sys2Proof.Machine
end

section
/-! PROOFS, family 42_command: a command word does what the pseudocode of 42_command.md R160 says of its bits; its
receivers, its uses of A and its reads of memory follow from that. -/

namespace Sys2Proof.Machine

open Sys2Proof.Claims

/-! ### A command word executed -/

/-- `dA dD dM` are bits 5, 4 and 3 of a command word (30_encoding.md R66). -/
theorem destOfBits_extract (w : Word) :
    Dest.ofBits (w.extractLsb' 3 3) = ⟨w.getLsbD 5, w.getLsbD 4, w.getLsbD 3⟩ := by
  rw [Dest.ofBits, BitVec.getLsbD_extractLsb', BitVec.getLsbD_extractLsb', BitVec.getLsbD_extractLsb']
  rfl

/-- A field of a field is a field. The library has the case of an outer field at bit 0. -/
theorem extractLsb'_extractLsb' {n start len start' len' : Nat} (x : BitVec n) (h : start' + len' ≤ len) :
    (x.extractLsb' start len).extractLsb' start' len' = x.extractLsb' (start + start') len' := by
  refine BitVec.eq_of_getLsbD_eq fun i hi => ?_
  have hlen : start' + i < len := by omega
  simp [-BitVec.getLsbD_eq_getElem, BitVec.getLsbD_extractLsb', hlen, Nat.add_assoc]

/-- The computation code of a command word has the a-bit at 12 and the control field at 11:6 (30_encoding.md R63,
R65). -/
theorem codeFields_extract (w : Word) :
    codeFields (w.extractLsb' 6 7) = (YSource.ofBit (w.getLsbD 12), AluControl.ofBits (w.extractLsb' 6 6)) := by
  rw [codeFields, BitVec.getLsbD_extractLsb', extractLsb'_extractLsb' _ (by decide)]
  rfl

/-- A command word writes back the result of its bits. -/
theorem exec_decode_of_command {w : Word} (h15 : w.getLsbD 15 = true) (s : State) :
    exec (decode w) s =
      .next (writeback (Dest.ofBits (w.extractLsb' 3 3)) (Jump.ofBits (w.extractLsb' 0 3)) (resultOf w s) s) := by
  rw [decode, if_pos h15, exec_decodeCommand, codeFields_extract, command_eq, operandY_ofBit, alu_ofBits]
  rfl

/-- A state is its fields. -/
theorem State.eq_of_fields {s t : State} (hA : s.regA = t.regA) (hD : s.regD = t.regD) (hpc : s.pc = t.pc)
    (hmem : s.mem = t.mem) (hwritten : s.written = t.written) (hbudget : s.budget = t.budget)
    (hrom : s.rom = t.rom) : s = t := by
  cases s
  cases t
  simp_all only

/-- Writeback with the fields of a command word is the pseudocode of 42_command.md R160, field by field. -/
theorem writeback_eq_commandAfter (w : Word) (s : State) :
    writeback (Dest.ofBits (w.extractLsb' 3 3)) (Jump.ofBits (w.extractLsb' 0 3)) (resultOf w s) s =
      commandAfter w s := by
  rw [destOfBits_extract]
  refine State.eq_of_fields (writeback_regA ..) (writeback_regD ..) ?_ (writeback_mem ..) (writeback_written ..)
    (writeback_budget ..) (writeback_rom ..)
  rw [writeback_pc, taken_eq_condBits, Jump.toBits_ofBits]
  rfl

/-- Settles O25: a command word writes back the result of its bits, which is what the pseudocode says. -/
theorem commandWordsFollowTheirBits : Obligations.CommandWordsFollowTheirBits := by
  intro w s h15
  rw [exec_decode_of_command h15, writeback_eq_commandAfter]

/-! ### Receivers and uses of A -/

/-- In a canonical memory, the receivers that bits 5:3 name get the result of the word's bits. -/
theorem receives_commandAfter {s : State} (hwf : s.mem.wf) (w : Word) :
    Receives (Dest.ofBits (w.extractLsb' 3 3)) (resultOf w s) s (commandAfter w s) := by
  rw [← writeback_eq_commandAfter]
  exact receives_writeback hwf ..

/-- Settles O17: each code is one value of bits 5:3, whose receivers are known for all values at once. -/
theorem destinationCodesSelectTheReceivers : Obligations.DestinationCodesSelectTheReceivers := by
  intro w s h15 hwf
  have hcode {b : BitVec 3} {d : Dest} (hd : Dest.ofBits b = d) (hb : w.extractLsb' 3 3 = b) :
      Receives d (resultOf w s) s (commandAfter w s) := by
    rw [← hd, ← hb]
    exact receives_commandAfter hwf w
  exact ⟨_, commandWordsFollowTheirBits w s h15, hcode rfl, hcode rfl, hcode rfl, hcode rfl, hcode rfl, hcode rfl,
    hcode rfl, hcode rfl⟩

/-- Settles O20: A and the word at the old A are receivers, the word at another address is in their frame, and the
pseudocode jumps to the old A. -/
theorem everyUseOfAIsItsOldValue : Obligations.EveryUseOfAIsItsOldValue := by
  intro w s h15 hdA hdM hwf
  have hrec := receives_commandAfter hwf w
  rw [destOfBits_extract, hdA, hdM] at hrec
  obtain ⟨hA, -, hstore, hframe, -⟩ := hrec
  exact ⟨_, commandWordsFollowTheirBits w s h15, hA, hstore rfl,
    fun hne => hframe _ (.inr fun h => hne (BitVec.eq_of_toNat_eq h)), fun hcond => if_pos hcond⟩

/-! ### Reads of memory -/

/-- Of memory, the result of a command word depends on the word at A alone, and only with a = 1 (42_command.md
R161). -/
theorem resultOf_congr_mem {w : Word} {s : State} {m : Memory}
    (h : w.getLsbD 12 = true → m.read s.regA.toNat = s.mem.read s.regA.toNat) :
    resultOf w { s with mem := m } = resultOf w s := by
  rw [resultOf, resultOf]
  split
  next ha => rw [h ha]
  next => rfl

/-- In a canonical memory, writeback with dM leaves the result at the old A (42_command.md R160). -/
theorem writeback_mem_read_same {s : State} {d : Dest} (hwf : s.mem.wf) (hM : d.dM = true) (j : Jump) (out : Word) :
    (writeback d j out s).mem.read s.regA.toNat = out := by
  obtain ⟨-, -, hstore, -⟩ := receives_writeback hwf d j out
  exact hstore hM

/-- Settles O16: an address word reads no memory, and both runs of a command word have one result. -/
theorem commandReadsAtMostTheWordAtA : Obligations.CommandReadsAtMostTheWordAtA := by
  intro w s m hread
  obtain ⟨h15, hdec⟩ | ⟨h15, -⟩ := decode_cases w
  · rw [hdec]
    exact ⟨_, _, exec_atValue .., exec_atValue .., rfl, rfl, rfl, rfl,
      fun _ _ hcmd => absurd (h15.symm.trans hcmd) (by decide)⟩
  · have hout : resultOf w { s with mem := m } = resultOf w s := resultOf_congr_mem fun ha => hread ⟨h15, ha⟩
    refine ⟨_, _, exec_decode_of_command h15 s, exec_decode_of_command h15 _, ?_⟩
    rw [hout, destOfBits_extract]
    exact ⟨by simp, by simp, by simp, by simp, fun hs hm _ hdM => (writeback_mem_read_same hs hdM ..).trans
      (writeback_mem_read_same (s := { s with mem := m }) hm hdM ..).symm⟩

end Sys2Proof.Machine
end

section
/-! PROOFS, family 43_jump: the sign of a result decides which jump bit counts, and the next PC of every word (43_jump.md
R190 to R200). -/

namespace Sys2Proof.Machine

/-! ### The signed reading of the signals -/

/-- `ng` is the sign bit of the result (43_jump.md R190). -/
theorem ng_eq_decide_toInt (out : Word) : ng out = decide (out.toInt < 0) := by
  rw [← BitVec.msb_eq_toInt, BitVec.msb_eq_getLsbD_last]
  rfl

theorem zr_eq_decide_toInt (out : Word) : zr out = decide (out.toInt = 0) := by
  have hzero : out.toInt = 0 ↔ out = 0 := BitVec.toInt_inj (y := 0)
  rw [Bool.eq_iff_iff, zr_eq_true_iff, decide_eq_true_iff, hzero]

/-- A result is negative, zero or positive; by each, one bit of the jump field is the jump condition (43_jump.md
R190). -/
theorem sign_cases (out : Word) :
    (out.toInt < 0 ∧ ng out = true ∧ zr out = false ∧ ∀ j, taken j out = j.jLT) ∨
    (out.toInt = 0 ∧ ng out = false ∧ zr out = true ∧ ∀ j, taken j out = j.jEQ) ∨
    (0 < out.toInt ∧ ng out = false ∧ zr out = false ∧ ∀ j, taken j out = j.jGT) := by
  obtain hneg | hzero | hpos := lt_trichotomy out.toInt 0
  · have hng : ng out = true := by simp [ng_eq_decide_toInt, hneg]
    have hzr : zr out = false := by simp [zr_eq_decide_toInt, hneg.ne]
    exact .inl ⟨hneg, hng, hzr, fun j => by simp [taken, hng, hzr]⟩
  · have hng : ng out = false := by simp [ng_eq_decide_toInt, hzero]
    have hzr : zr out = true := by simp [zr_eq_decide_toInt, hzero]
    exact .inr (.inl ⟨hzero, hng, hzr, fun j => by simp [taken, hng, hzr]⟩)
  · have hng : ng out = false := by simp [ng_eq_decide_toInt, hpos.le]
    have hzr : zr out = false := by simp [zr_eq_decide_toInt, hpos.ne']
    exact .inr (.inr ⟨hpos, hng, hzr, fun j => by simp [taken, hng, hzr]⟩)

/-! ### The next PC -/

/-- Settles O18: each clause is evaluated on a negative, a zero and a positive result. `D` writes back D itself, and its
jump reads the old A, whatever the destination. -/
theorem jumpCodesTestSignAndZero : Obligations.JumpCodesTestSignAndZero := by
  refine ⟨fun _ _ => rfl, fun out => ⟨?_, ?_, ?_, ?_, ?_, ?_, ?_, ?_, ?_, ?_, ?_, ?_, ?_, ?_,
    fun d j s _ hD => ⟨_, exec_passD d j s, hD ▸ writeback_pc ..⟩⟩⟩
  all_goals
    obtain ⟨hneg, hng, hzr, htaken⟩ | ⟨hzero, hng, hzr, htaken⟩ | ⟨hpos, hng, hzr, htaken⟩ := sign_cases out
    · simp [Jump.ofBits, htaken, hng, hzr, hneg, hneg.le, hneg.ne, hneg.not_gt]
    · simp [Jump.ofBits, htaken, hng, hzr, hzero]
    · simp [Jump.ofBits, htaken, hng, hzr, hpos, hpos.le, hpos.ne', hpos.not_gt]

/-- Settles O19: an address word goes to PC + 1, and a command word where the pseudocode of its bits goes. -/
theorem nextPcIsOldAOrPcPlusOne : Obligations.NextPcIsOldAOrPcPlusOne := by
  intro w s
  obtain ⟨h15, hdec⟩ | ⟨h15, -⟩ := decode_cases w
  · rw [h15, hdec]
    exact ⟨_, exec_atValue .., rfl⟩
  · rw [h15]
    exact ⟨_, commandWordsFollowTheirBits w s h15, rfl⟩

end Sys2Proof.Machine
end

section
/-! PROOFS, family 44_sequencer: a step runs the instruction at PC and spends the budget, the end of a run, and its
output (44_sequencer.md R210 to R217). -/

namespace Sys2Proof.Machine

open Sys2Proof.Claims

/-! ### The instruction a step runs -/

/-- A step of a running core, out of `step_cases`. -/
theorem step_of_running {s : State} (hrun : s.running) :
    ∃ t, exec (decode s.fetch) s = .next t ∧ step s = .next (t.setBudget t.budget.spend) := by
  obtain ⟨hhalted, -⟩ | ⟨-, hstep⟩ := step_cases s
  · exact absurd (hrun.symm.trans hhalted) (by decide)
  · exact hstep

/-- The word that ROM holds at PC is the one fetched (44_sequencer.md R213). -/
theorem State.fetch_of_getElem? {s : State} {w : Word} (h : s.rom[s.pc.toNat]? = some w) : s.fetch = w := by
  rw [State.fetch, List.getD_eq_getElem?_getD, h, Option.getD_some]

/-- Settles O27: the step decodes the word it fetches. -/
theorem stepRunsTheDecodedInstruction : Obligations.StepRunsTheDecodedInstruction := by
  intro s w hrun hw
  rw [← State.fetch_of_getElem? hw]
  exact step_of_running hrun

/-- Settles O28: the word at PC decodes to the instruction. -/
theorem stepRunsTheEncodedInstruction : Obligations.StepRunsTheEncodedInstruction := by
  intro i s hwf hrun hw
  have hstep := stepRunsTheDecodedInstruction s (encode i) hrun hw
  rwa [decode_encode hwf] at hstep

/-- The literal of a word as a value: bit 15 is cleared (40_address_instruction.md R100, 44_sequencer.md R216). -/
theorem zeroExtend_extract_literal (w : Word) : (w.extractLsb' 0 15).zeroExtend 16 = w &&& 0x7FFF#16 := by
  refine BitVec.eq_of_toNat_eq ?_
  have hand : (w &&& 0x7FFF#16).toNat = w.toNat % 2 ^ 15 := Nat.and_two_pow_sub_one_eq_mod w.toNat 15
  rw [hand, BitVec.zeroExtend, BitVec.toNat_setWidth, BitVec.extractLsb'_toNat, Nat.shiftRight_zero]
  omega

/-- Every word does what the body of 44_sequencer.md R216 says of its bits. -/
theorem exec_decode (w : Word) (s : State) : exec (decode w) s = .next (wordAfter w s) := by
  obtain ⟨h15, hdec⟩ | ⟨h15, -⟩ := decode_cases w
  · rw [hdec, exec_atValue, zeroExtend_extract_literal, wordAfter, if_neg (by rw [h15]; decide)]
    rfl
  · rw [wordAfter, if_pos h15, commandWordsFollowTheirBits w s h15]

theorem stepAfter_of_halted {s : State} (h : s.halted = true) : stepAfter s = s :=
  if_pos (s.halted_iff.1 h)

theorem stepAfter_of_running {s : State} (h : s.running) :
    stepAfter s = (wordAfter s.fetch s).setBudget (wordAfter s.fetch s).budget.spend :=
  if_neg (mt s.halted_iff.2 (by simp [h]))

/-- Settles O26: a halted core stays, and a running one does what the bits of the fetched word say. -/
theorem stepIsTheSpecStepFunction : Obligations.StepIsTheSpecStepFunction := by
  intro s
  obtain ⟨hhalted, hstep⟩ | ⟨hrun, t, ht, hstep⟩ := step_cases s
  · rw [hstep, stepAfter_of_halted hhalted]
  · rw [exec_decode] at ht
    cases ht
    rw [hstep, stepAfter_of_running hrun]

/-! ### The budget -/

/-- An executed instruction spends the budget once, whichever it is (44_sequencer.md R212). -/
theorem step_next_budget {s t : State} (hrun : s.running) (h : step s = .next t) : t.budget = s.budget.spend := by
  obtain ⟨u, hu, hstep⟩ := step_of_running hrun
  cases hstep.symm.trans h
  rw [State.setBudget_budget, (exec_next_rom_budget hu).2]

/-- Settles O31: the budget of a running core is not 0, and a step spends it. -/
theorem eachInstructionSpendsOneBudgetUnit : Obligations.EachInstructionSpendsOneBudgetUnit := by
  refine fun s => ⟨fun hrun => ?_, fun hunlimited => by simp [State.halted_iff, hunlimited]⟩
  obtain ⟨t, hstep⟩ := step_total s
  have hbudget : t.budget = s.budget.spend := step_next_budget hrun hstep
  have hnonzero : s.budget ≠ .limited 0 := (s.not_halted_iff.1 hrun).2
  refine ⟨t, hstep, fun n hn => ⟨?_, ?_⟩, fun hunlimited => ?_⟩
  · exact Nat.pos_of_ne_zero fun h0 => hnonzero (hn.trans (congrArg Budget.limited h0))
  · rw [hbudget, hn, Budget.spend_limited]
  · rw [hbudget, hunlimited, Budget.spend_unlimited]

/-! ### The end of a run -/

/-- A halted core stays as it is (44_sequencer.md R211; log entry 5). -/
theorem run_of_halted {s : State} (h : s.halted = true) (k : Nat) : Host.Core.run Sys2Proof.core k s = .next s := by
  have hstep : step s = .next s := if_pos h
  induction k with
  | zero => rfl
  | succ k ih => rw [run_of_step hstep, ih]

/-- Settles O30: the two conditions are those of `halted`, and a halted core stays. -/
theorem haltedStatesAreFinal : Obligations.HaltedStatesAreFinal :=
  fun s => ⟨s.halted_iff, run_of_halted⟩

/-- Settles O32, by induction on the budget: a core that is not halted yet spends one unit. -/
theorem finiteBudgetHaltsWithinBudgetSteps : Obligations.FiniteBudgetHaltsWithinBudgetSteps := by
  intro b
  induction b with
  | zero => exact fun s hb => ⟨s, rfl, s.halted_iff.2 (.inr hb)⟩
  | succ b ih =>
    intro s hb
    cases hs : s.halted
    case true => exact ⟨s, run_of_halted hs _, hs⟩
    case false =>
      obtain ⟨t, hstep⟩ := step_total s
      have ht : t.budget = .limited b := by
        rw [step_next_budget hs hstep, hb, Budget.spend_limited, Nat.add_sub_cancel]
      rw [run_of_step hstep]
      exact ih t ht

/-- Once a run has reached a halted state, more steps answer that state. -/
theorem run_add_of_halted {k : Nat} {s e : State} (hrun : Host.Core.run Sys2Proof.core k s = .next e)
    (he : e.halted = true) (j : Nat) : Host.Core.run Sys2Proof.core (k + j) s = .next e := by
  rw [run_add hrun, run_of_halted he]

/-- Settles O33: after the steps of both runs together, the core is in either end. -/
theorem runsEndInOneState : Obligations.RunsEndInOneState := by
  rintro s e e' ⟨k, hk, he⟩ ⟨k', hk', he'⟩
  have hend := run_add_of_halted hk he k'
  rw [Nat.add_comm, run_add_of_halted hk' he'] at hend
  cases hend
  rfl

/-! ### The output -/

theorem State.map_fst_output (s : State) : s.output.map Prod.fst = s.written := by
  rw [State.output, List.map_map]
  exact List.map_id s.written

theorem State.mem_output {s : State} {a : Nat} {v : Word} :
    (a, v) ∈ s.output ↔ a ∈ s.written ∧ v = s.mem.read a := by
  rw [State.output, List.mem_map]
  constructor
  · rintro ⟨b, hb, heq⟩
    cases heq
    exact ⟨hb, rfl⟩
  · rintro ⟨ha, rfl⟩
    exact ⟨a, ha, rfl⟩

/-- Where every stored word is accounted for, an address that reads nonzero is in WRITTEN (10_state.md R30). -/
theorem State.mem_written_of_read_ne_zero {s : State} (h : s.accounted) {a : Nat} (ha : s.mem.read a ≠ 0) :
    a ∈ s.written := by
  by_contra hnot
  exact ha (Memory.read_of_not_listed fun c hc hca => hnot (hca ▸ h c hc))

/-- Settles O41: the output lists WRITTEN, which ascends and has every address that reads nonzero. -/
theorem outputIsTheWrittenMemoryMap : Obligations.OutputIsTheWrittenMemoryMap := by
  rintro s ⟨-, ⟨hascending, -⟩, hacc, -⟩
  refine ⟨?_, fun a v => State.mem_output, fun a ha => State.mem_output.2 ⟨?_, rfl⟩⟩
  · rwa [State.map_fst_output]
  · exact State.mem_written_of_read_ne_zero hacc ha

end Sys2Proof.Machine
end

section
/-! PROOFS, family 60_exceptions: what refuses a launch (60_exceptions.md R237; 30_encoding.md R94, R95). -/

namespace Sys2Proof.Machine

/-! ### Programs that are not read -/

/-- One malformed line, wherever it stands, refuses a binary program (30_encoding.md R95). -/
theorem parseProgram_of_malformed_line {lines : List Line} (h : ∃ l ∈ lines, parseWord l = none) :
    parseProgram lines = .error .malformedBinaryLine := by
  obtain ⟨l, hmem, hl⟩ := h
  induction hmem with
  | head => rw [parseProgram, hl]
  | @tail first rest _ ih =>
    rw [parseProgram]
    cases parseWord first with
    | none => rfl
    | some w =>
      rw [ih]
      rfl

theorem readProgram_binary (lines : List Line) : readProgram false lines = parseProgram lines := rfl

theorem readProgram_of_asmError {lines : List Line} {e : AsmError} (h : assemble lines = .error e) :
    readProgram true lines = .error e.refusal := by
  simp only [readProgram, h, if_true]

/-! ### The checks of a launch, each refusing under its own name -/

section
variable {args : LaunchArgs} {rom : List Word} {r : Refusal}

theorem launch_of_unread (hread : readProgram args.isSourceForm args.lines = .error r) :
    launch args = .refused r := by
  simp only [launch, hread]

theorem launch_of_too_long (hread : readProgram args.isSourceForm args.lines = .ok rom)
    (hlen : Config.romMax < rom.length) : launch args = .refused .programTooLong := by
  simp only [launch, hread, if_pos hlen]

theorem launch_of_bad_budget (hread : readProgram args.isSourceForm args.lines = .ok rom)
    (hlen : rom.length ≤ Config.romMax) (hbudget : args.cycleBudget.budget = .error r) :
    launch args = .refused r := by
  simp only [launch, hread, if_neg (Nat.not_lt.2 hlen), hbudget]

/-- An assembler error refuses a source program under the name `AsmError.refusal` gives it (30_encoding.md R94). -/
theorem launch_of_asmError {e : AsmError} (hsource : args.isSourceForm = true)
    (h : assemble args.lines = .error e) : launch args = .refused e.refusal :=
  launch_of_unread <| by rw [hsource, readProgram_of_asmError h]

/-- A malformed line refuses a binary program (30_encoding.md R95). -/
theorem launch_of_malformed_line (hbinary : args.isSourceForm = false)
    (h : ∃ l ∈ args.lines, parseWord l = none) : launch args = .refused .malformedBinaryLine :=
  launch_of_unread <| by rw [hbinary, readProgram_binary, parseProgram_of_malformed_line h]

end

theorem BudgetArg.budget_negSucc (n : Nat) : (BudgetArg.int (.negSucc n)).budget = .error .invalidBudget := rfl

/-- Settles O47: in each case one check fails and those before it pass. -/
theorem badLaunchesAreRefused : Obligations.BadLaunchesAreRefused := by
  refine fun args => ⟨launch_of_malformed_line, fun hsource => ?_, fun ws => launch_of_too_long, ?_⟩
  · exact ⟨launch_of_asmError hsource, launch_of_asmError hsource, launch_of_asmError hsource,
      launch_of_asmError hsource⟩
  · intro ws n hread hlen hneg
    exact launch_of_bad_budget hread hlen (hneg ▸ BudgetArg.budget_negSucc n)

end Sys2Proof.Machine
end

section
/-! PROOFS, family 70_reset_and_hazards: the state at the start of a run (70_reset_and_hazards.md R250), what an accepted
launch answers (R251), and the word that withFetchWord loads. -/

namespace Sys2Proof.Machine

/-! ### The state at the start of a run -/

/-- A start state has no stored word and no recorded address, so the invariant asks only for the bound on the program. -/
theorem start_inv_iff {initA initD : Word} {b : Budget} {rom : List Word} :
    (State.start initA initD b rom).Inv ↔ rom.length ≤ Config.romMax := by
  simp [State.Inv, State.accounted, Memory.wf, WrittenSet.wf]

/-- Settles O36: each field is the argument of the start state, or what R250 gives it. -/
theorem runStartsFromTheResetState : Obligations.RunStartsFromTheResetState :=
  ⟨fun initA initD b rom =>
    ⟨State.start_regA initA initD b rom, State.start_regD initA initD b rom, State.start_pc initA initD b rom,
      State.memRead_start initA initD b rom, State.start_written initA initD b rom,
      State.start_budget initA initD b rom, State.start_rom initA initD b rom⟩,
   rfl⟩

/-- Settles O37: the reset state is the start state with the empty program. -/
theorem startStatesMeetTheInvariant : Obligations.StartStatesMeetTheInvariant :=
  ⟨fun _ _ _ _ => start_inv_iff.2, start_inv_iff.2 (Nat.zero_le _)⟩

/-! ### An accepted launch -/

/-- The other direction of `launch_of_checks`: an accepted launch has passed its three checks, of the lines, of the
program's length and of the budget (70_reset_and_hazards.md R251). -/
theorem launch_eq_next {args : LaunchArgs} {s : State} (h : launch args = .next s) :
    ∃ b rom, args.cycleBudget.budget = .ok b ∧ readProgram args.isSourceForm args.lines = .ok rom ∧
      rom.length ≤ Config.romMax ∧ s = State.start args.initA args.initD b rom := by
  cases hread : readProgram args.isSourceForm args.lines with
  | error r => cases h.symm.trans (launch_of_unread hread)
  | ok rom =>
    rcases Nat.lt_or_ge Config.romMax rom.length with hlong | hlen
    · cases h.symm.trans (launch_of_too_long hread hlong)
    · cases hbudget : args.cycleBudget.budget with
      | error r => cases h.symm.trans (launch_of_bad_budget hread hlen hbudget)
      | ok b =>
        cases h.symm.trans (launch_of_checks hread hlen hbudget)
        exact ⟨b, rom, rfl, rfl, hlen, rfl⟩

/-- Settles O48: the length check of an accepted launch is the bound that the invariant asks of a start state. -/
theorem acceptedLaunchesMeetTheInvariant : Obligations.AcceptedLaunchesMeetTheInvariant := by
  intro args s h
  obtain ⟨b, rom, hbudget, hread, hlen, rfl⟩ := launch_eq_next h
  exact ⟨start_inv_iff.2 hlen, b, rom, hbudget, hread, rfl⟩

/-! ### A word loaded at PC -/

/-- A 16-bit word passes through withFetchWord's number unchanged (log entry 12). -/
theorem State.withFetchWord_toNat (s : State) (w : Word) : s.withFetchWord 16 w.toNat = s.loadAtPc w := by
  rw [State.withFetchWord, Nat.mod_eq_of_lt w.isLt, BitVec.ofNat_toNat, BitVec.setWidth_eq]

/-- Settles O29: the load is at PC, so the core runs and fetches the word, and the step is that of a running core. -/
theorem loadedWordIsTheNextStep : Obligations.LoadedWordIsTheNextStep := by
  intro s w
  rw [State.withFetchWord_toNat]
  obtain ⟨hrun, hfetch⟩ := s.loadAtPc_fetch w
  have hstep := step_of_running hrun
  rw [hfetch] at hstep
  exact ⟨hrun, s.loadAtPc_regA w, s.loadAtPc_regD w, s.loadAtPc_pc w, s.loadAtPc_mem w, s.loadAtPc_written w, hstep⟩

end Sys2Proof.Machine
end

section
/-! PROOFS, family other: the words written out in the test vectors (95_test_vectors.md S1, S2, sections 4 to 7). -/

namespace Sys2Proof

/-- A word that the encoder writes for a well-formed instruction decodes to it. -/
theorem decode_eq_of_encode_eq {i : Instr} {w : Word} (hwf : i.wellFormed = true) (hw : encode i = w) : decode w = i :=
  hw ▸ decode_encode hwf

/-- Settles O1: the first six words are encodings of well-formed instructions, and the last is the word of D=A but for
bits 14:13, which the decoder ignores (30_encoding.md R68). -/
theorem specWordsDecode : Obligations.SpecWordsDecode := by
  have hDA : decode 0b1110110000010000#16 = .passA ⟨false, true, false⟩ ⟨false, false, false⟩ :=
    decode_eq_of_encode_eq (by decide) (by decide)
  have hignored : decode 0b1000110000010000#16 = decode 0b1110110000010000#16 :=
    decode_congr_of_command (by decide) (by decide) (by decide)
  refine ⟨?_, hDA, ?_, ?_, ?_, ?_, hignored.trans hDA⟩
  all_goals exact decode_eq_of_encode_eq (by decide) (by decide)

end Sys2Proof
end
